-- ==== Sys2Proof/Word.lean ====
section
/-! DEFINITION. The word types of C4CORE (00_scope.md rule R3: the block is 16 bits, a nibble is 4 bits, a
round key is 16 bits) and nothing more. Bit `i` has weight `2^i` (10_state.md rule R10). -/

namespace Sys2Proof

/-- A 16-bit word: the block register, a round key, `wdata`, `rdata`, a command word (R3, R10, R35, R50). -/
abbrev Word := BitVec 16

/-- A 4-bit unit; a block is four of them (R3). -/
abbrev Nibble := BitVec 4

end Sys2Proof
end

