-- ==== Sys2Proof/Syntax.lean ====
section
/-! DEFINITION. The syntax of C4CORE: the command the host presents, and the fifteen instructions
(30_encoding.md rules R50, R52, R53, R58), one constructor for each row of spec/opcode_table.json. -/

namespace Sys2Proof

/-- One command: the command word and the data operand presented with it (R50, 00_scope.md section 5). -/
structure Command where
  cmd   : Word
  wdata : Word
  deriving DecidableEq, Repr

/-- The fifteen instructions. `imm` is the data operand `wdata`, used whole; `idx` is the key index `IDX`,
"zero-extended, used as a natural number" (R52), bounded by `Instr.WellFormed`. -/
inductive Instr where
  /-- `LDS #imm` (R130): load the block register. -/
  | lds (imm : Word)
  /-- `RDS` (R131): read the block register. -/
  | rds
  /-- `KCLR` (R132): drop the key sequence. -/
  | kclr
  /-- `KPUSH #imm` (R133): append one round key. -/
  | kpush (imm : Word)
  /-- `MIX k<idx>` (R80): mix a round key from the store. -/
  | mix (idx : Nat)
  /-- `MIXI #imm` (R81): mix the key given in `wdata`. -/
  | mixi (imm : Word)
  /-- `SUB` (R82): forward substitution layer. -/
  | sub
  /-- `ISUB` (R83): inverse substitution layer. -/
  | isub
  /-- `PERM` (R84): permutation layer. -/
  | perm
  /-- `RND k<idx>` (R95): one full round. -/
  | rnd (idx : Nat)
  /-- `IRND k<idx>` (R96): inverse of the full round. -/
  | irnd (idx : Nat)
  /-- `LRND k<idx>` (R97): the last round, keys `idx` and `idx + 1`. -/
  | lrnd (idx : Nat)
  /-- `ILRND k<idx>` (R98): inverse of the last round, the same pair of keys. -/
  | ilrnd (idx : Nat)
  /-- `ENC #imm` (R113): encrypt the block in `wdata` with the keys in the store. -/
  | enc (imm : Word)
  /-- `DEC #imm` (R114): decrypt the block in `wdata` with the keys in the store. -/
  | dec (imm : Word)
  deriving DecidableEq, Repr

end Sys2Proof
end

