-- ==== Sys2Proof/WellFormed.lean ====
section
/-! DEFINITION. Which instructions the encoding can carry: a key index is 0..255 (30_encoding.md rules R51,
R58). A data operand is 16 bits by its type and needs no check. -/

namespace Sys2Proof

/-- The index of an indexed instruction fits the 8-bit field `IDX` (R51); every other instruction is well
formed. -/
def Instr.wellFormed : Instr → Bool
  | .lds _ => true
  | .rds => true
  | .kclr => true
  | .kpush _ => true
  | .mix idx => decide (idx < 256)
  | .mixi _ => true
  | .sub => true
  | .isub => true
  | .perm => true
  | .rnd idx => decide (idx < 256)
  | .irnd idx => decide (idx < 256)
  | .lrnd idx => decide (idx < 256)
  | .ilrnd idx => decide (idx < 256)
  | .enc _ => true
  | .dec _ => true

/-- `Instr.wellFormed` as a proposition. -/
abbrev Instr.WellFormed (i : Instr) : Prop := i.wellFormed = true

end Sys2Proof
end

