-- ==== Sys2Proof/Decode.lean ====
section
/-! DEFINITION. The command encoding (30_encoding.md): the fields of the command word (R51), the opcode map
(R53), the decoder (R54, total on all 65536 command words, rejecting by the three ways of R55), and the
encoder written from the same map. The core has no bytes and no fetch (R33, R38): a command is two words. -/

namespace Sys2Proof

/-- `OP = cmd[15:12]` (R51). -/
def opField (cmd : Word) : BitVec 4 := cmd.extractLsb' 12 4

/-- `RSV = cmd[11:8]`, reserved, must be 0 (R51). -/
def rsvField (cmd : Word) : BitVec 4 := cmd.extractLsb' 8 4

/-- `IDX = cmd[7:0]` (R51). -/
def idxField (cmd : Word) : BitVec 8 := cmd.extractLsb' 0 8

/-- Why a command word is illegal: the three ways of R55, in the order R54 tests them. -/
inductive Illegal where
  /-- `OP = 0x0`. -/
  | opcodeZero
  /-- `RSV != 0`, for an indexed command too. -/
  | reservedNotZero
  /-- `IDX != 0` in a command that is not indexed. -/
  | indexNotZero
  deriving DecidableEq, Repr

/-- The indexed commands of R53, `Indexed(op, idx)` of R54. -/
def indexedInstr (op : BitVec 4) (idx : Nat) : Option Instr :=
  match op.toNat with
  | 0x5 => some (.mix idx)
  | 0xA => some (.rnd idx)
  | 0xB => some (.irnd idx)
  | 0xC => some (.lrnd idx)
  | 0xD => some (.ilrnd idx)
  | _ => none

/-- The commands of R53 that are not indexed, `Plain(op)` of R54, with the data operand where the command
uses it (R52: every other command ignores `wdata`). -/
def plainInstr (op : BitVec 4) (wdata : Word) : Option Instr :=
  match op.toNat with
  | 0x1 => some (.lds wdata)
  | 0x2 => some .rds
  | 0x3 => some .kclr
  | 0x4 => some (.kpush wdata)
  | 0x6 => some (.mixi wdata)
  | 0x7 => some .sub
  | 0x8 => some .isub
  | 0x9 => some .perm
  | 0xE => some (.enc wdata)
  | 0xF => some (.dec wdata)
  | _ => none

/-- `decode` of R54. It never looks at any state; `wdata` is only carried into the operand. The last
`none` stands for `OP = 0`, which the first test has already answered. -/
def decode (c : Command) : Except Illegal Instr :=
  if opField c.cmd = 0#4 then .error .opcodeZero
  else if rsvField c.cmd ≠ 0#4 then .error .reservedNotZero
  else match indexedInstr (opField c.cmd) (idxField c.cmd).toNat with
    | some i => .ok i
    | none =>
      if idxField c.cmd ≠ 0#8 then .error .indexNotZero
      else match plainInstr (opField c.cmd) c.wdata with
        | some i => .ok i
        | none => .error .opcodeZero

/-- The opcode of each instruction (R53). -/
def Instr.opcode : Instr → BitVec 4
  | .lds _ => 0x1
  | .rds => 0x2
  | .kclr => 0x3
  | .kpush _ => 0x4
  | .mix _ => 0x5
  | .mixi _ => 0x6
  | .sub => 0x7
  | .isub => 0x8
  | .perm => 0x9
  | .rnd _ => 0xA
  | .irnd _ => 0xB
  | .lrnd _ => 0xC
  | .ilrnd _ => 0xD
  | .enc _ => 0xE
  | .dec _ => 0xF

/-- The key index an instruction names; `none` for a command that is not indexed (R53). -/
def Instr.index? : Instr → Option Nat
  | .mix idx => some idx
  | .rnd idx => some idx
  | .irnd idx => some idx
  | .lrnd idx => some idx
  | .ilrnd idx => some idx
  | .lds _ => none
  | .rds => none
  | .kclr => none
  | .kpush _ => none
  | .mixi _ => none
  | .sub => none
  | .isub => none
  | .perm => none
  | .enc _ => none
  | .dec _ => none

/-- The data operand an instruction uses; `none` for a command that ignores `wdata` (R52, R53). -/
def Instr.data? : Instr → Option Word
  | .lds imm => some imm
  | .kpush imm => some imm
  | .mixi imm => some imm
  | .enc imm => some imm
  | .dec imm => some imm
  | .rds => none
  | .kclr => none
  | .mix _ => none
  | .sub => none
  | .isub => none
  | .perm => none
  | .rnd _ => none
  | .irnd _ => none
  | .lrnd _ => none
  | .ilrnd _ => none

/-- The command word of an instruction: opcode, reserved nibble 0, index field (R51). -/
def commandWord (op : BitVec 4) (idx : Nat) : Word := op ++ (0#4 ++ BitVec.ofNat 8 idx)

/-- The words of an instruction (R51, R53). A command that does not use `wdata` is assembled with
`wdata = 0x0000` (R58). -/
def encode (i : Instr) : Command :=
  { cmd := commandWord i.opcode (i.index?.getD 0), wdata := i.data?.getD 0 }

/-- The mnemonics of R53. -/
def Instr.mnemonic : Instr → String
  | .lds _ => "LDS"
  | .rds => "RDS"
  | .kclr => "KCLR"
  | .kpush _ => "KPUSH"
  | .mix _ => "MIX"
  | .mixi _ => "MIXI"
  | .sub => "SUB"
  | .isub => "ISUB"
  | .perm => "PERM"
  | .rnd _ => "RND"
  | .irnd _ => "IRND"
  | .lrnd _ => "LRND"
  | .ilrnd _ => "ILRND"
  | .enc _ => "ENC"
  | .dec _ => "DEC"

/-- One row of the opcode map of R53: a word `w` selects the row with `(w AND mask) = pattern`. -/
structure OpcodeRow where
  mnemonic : String
  pattern  : Word
  mask     : Word
  deriving DecidableEq, Repr

/-- The opcode map as R53 prints it (its columns "mnemonic", "match" and "mask"). -/
def opcodeTable : List OpcodeRow :=
  [ ⟨"LDS",   0x1000, 0xFFFF⟩,
    ⟨"RDS",   0x2000, 0xFFFF⟩,
    ⟨"KCLR",  0x3000, 0xFFFF⟩,
    ⟨"KPUSH", 0x4000, 0xFFFF⟩,
    ⟨"MIX",   0x5000, 0xFF00⟩,
    ⟨"MIXI",  0x6000, 0xFFFF⟩,
    ⟨"SUB",   0x7000, 0xFFFF⟩,
    ⟨"ISUB",  0x8000, 0xFFFF⟩ ] ++
  [ ⟨"PERM",  0x9000, 0xFFFF⟩,
    ⟨"RND",   0xA000, 0xFF00⟩,
    ⟨"IRND",  0xB000, 0xFF00⟩,
    ⟨"LRND",  0xC000, 0xFF00⟩,
    ⟨"ILRND", 0xD000, 0xFF00⟩,
    ⟨"ENC",   0xE000, 0xFFFF⟩,
    ⟨"DEC",   0xF000, 0xFFFF⟩ ]

/-- The row's pattern covers the word (R53). -/
def OpcodeRow.covers (row : OpcodeRow) (cmd : Word) : Bool := cmd &&& row.mask == row.pattern

/-- Whether a command word is legal; no `wdata` can change it (R54). -/
def legalWord (cmd : Word) : Bool :=
  match decode ⟨cmd, 0⟩ with
  | .ok _ => true
  | .error _ => false

/-- The command record of R50: `cmd ++ wdata`, `cmd` first. -/
def Command.record (c : Command) : BitVec 32 := c.cmd ++ c.wdata

/-- The command whose bits are `w`, numbered as spec/opcode_table.json numbers them: the first word (`cmd`)
is bits 15..0 and the second (`wdata`) bits 31..16; bits at or above `nbits` are 0 (log entry 9). -/
def commandOfTableWord (nbits w : Nat) : Command :=
  { cmd := BitVec.ofNat 16 (w % 2 ^ nbits), wdata := BitVec.ofNat 16 (w % 2 ^ nbits / 65536) }

/-- The instruction the decoder reads from a table word. -/
def decodeTableWord (nbits w : Nat) : Option Instr :=
  match decode (commandOfTableWord nbits w) with
  | .ok i => some i
  | .error _ => none

end Sys2Proof
end

