-- ==== Sys2Proof/Config.lean ====
section
/-! DEFINITION. The build parameters of one core: the round count `R` (00_scope.md rule R2). The other
parameters of that file (`BITSEQ_ORDER`, `KEYGEN_MAX`) belong to a host and no rule of the core reads them
(rules R4, R5); `T_ROUND` is a matter of time, carried by `Edge.tick` (Machine/State.lean, log entry 5).
This model has no free value: every rule of the spec gives the value it speaks of. -/

namespace Sys2Proof

/-- What is fixed when a core is built (R2): "a static parameter fixed when the core is built; no command
reads or writes it". -/
structure Config where
  /-- `R`, the round count. -/
  rounds : Nat
  deriving DecidableEq, Repr

/-- The bound of R2: `1 <= R <= 255`. -/
abbrev Config.wf (c : Config) : Prop := 1 ≤ c.rounds ∧ c.rounds ≤ 255

/-- The default instance of R2: `R = 5`. -/
def Config.default : Config := { rounds := 5 }

/-- The number of round keys an operation needs, `R + 1` (R3). -/
def Config.keyCount (c : Config) : Nat := c.rounds + 1

end Sys2Proof
end

