-- ==== Sys2Proof/Machine/State.lean ====
section
/-! DEFINITION. The state of one core and of its ports (10_state.md rules R10 to R18, R23, R24), as plain
data, and the state after reset. The registers carry the spec's own names. There is no byte memory (R30), no
program counter (R19), no flag and no stored status (R20), no mode (R153): the spec gives the machine none. -/

namespace Sys2Proof.Machine

/-- Why a step stops with a fault. It has NO constructor: no rule of the spec stops the machine. An error is
a status code in a response and the core goes on (60_exceptions.md rules R141, R150), so no meaning raises
a fault; safe (there is nothing to raise). -/
inductive Fault where
  deriving DecidableEq, Repr

/-- Why a step gives an instruction no meaning. -/
inductive Refusal where
  /-- Raised only by an arm of `exec` whose instruction has no meaning yet (none in this model); safe: the
  machine stops where the hardware goes on. -/
  | notModelled (mnemonic : String)
  deriving DecidableEq, Repr

/-- `DIR` (R17): 0 while the running operation is `ENC`, 1 while it is `DEC`. -/
inductive Dir where
  | enc
  | dec
  deriving DecidableEq, Repr

/-- The status codes of 60_exceptions.md rule R140, under their names. Codes 8 to 15 are never produced and
have no constructor; `invalidBlock` and `unsupportedKey` are kept for the source's kinds and no step yields
them (R142, R145). -/
inductive Status where
  | ok
  | invalidBlock
  | insufficientKey
  | missingKey
  | unsupportedKey
  | illegalCmd
  | keyIndex
  | keyFull
  deriving DecidableEq, Repr

/-- A response, the pair of 30_encoding.md rule R60. -/
structure Response where
  status : Status
  rdata  : Word
  deriving DecidableEq, Repr

/-- What the outside world drives at one rising edge of `clk` (R10, R11). `command` is `none` when
`cmd_valid = 0` and `some (cmd, wdata)` when `cmd_valid = 1`. `tick` is the choice the spec calls "when the
sequencer steps" (R23): whether a running round step completes at this edge (`T_ROUND` is open, R172). -/
structure Edge where
  rst     : Bool
  command : Option Command
  tick    : Bool
  deriving DecidableEq, Repr

/-- The state: the tuple `(S, K[0..R], KN, BUSY, DIR, RC)` of R23, the build parameter, the response port, and
the inputs still to come (log entries 1, 3, 6). -/
structure State where
  /-- The build parameter `R` (R2); no step changes it. -/
  cfg    : Config
  /-- The block register (R12). -/
  S      : Word
  /-- The round-key store `K[0..R]`, entry `i` at position `i` (R13); `R + 1` entries (`State.wf`). -/
  K      : List Word
  /-- The key count (R14): entries below it are valid. -/
  KN     : Nat
  /-- An `ENC` or `DEC` is running (R16). -/
  BUSY   : Bool
  /-- The direction of the running operation (R17). -/
  DIR    : Dir
  /-- The number of round steps the running operation has completed (R18). -/
  RC     : Nat
  /-- The response port after the last edge: `none` is `rsp_valid = 0`, `some r` is `rsp_valid = 1` with
  `rsp_status` and `rsp_rdata` as in `r`, for one cycle (R10). -/
  rsp    : Option Response
  /-- What the host drives at the coming edges, the next one first; past the end of the list it presents
  nothing. -/
  inputs : List Edge
  deriving DecidableEq, Repr

/-- The state after reset of a core with build parameters `c` (R24). The spec leaves each `K[i]` unspecified
there; this model names 0 (DESIGN CHOICE, log entry 2). -/
def State.resetOf (c : Config) : State :=
  { cfg := c, S := 0x0000, K := List.replicate c.keyCount 0x0000, KN := 0, BUSY := false, DIR := .enc, RC := 0,
    rsp := none, inputs := [] }

/-- The state after reset of the default core, `R = 5` (R2, R24). The host has presented nothing. -/
def State.reset : State := State.resetOf Config.default

end Sys2Proof.Machine
end

