-- ==== Sys2Proof/Machine/Cipher.lean ====
section
/-! DEFINITION. The cipher as pure functions: tables and layers (40_layers.md rules R70 to R79), round
functions (41_rounds.md rules R90 to R93), drivers (42_drivers.md rules R110, R111), and the value after each
round (R119). None reads or writes state. -/

namespace Sys2Proof.Machine

/-- The substitution table: `SBOX(0), ..., SBOX(15)` in order (R70). -/
def sboxTable : List Nibble := [6, 4, 12, 5, 0, 7, 2, 14, 1, 15, 3, 13, 8, 10, 9, 11]

/-- The inverse table as R71 prints it. -/
def isboxTable : List Nibble := [4, 8, 6, 10, 1, 3, 0, 5, 12, 14, 13, 15, 2, 11, 7, 9]

/-- `SBOX` (R70). -/
def sbox (n : Nibble) : Nibble := sboxTable.getD n.toNat 0

/-- `ISBOX` (R71). -/
def isbox (m : Nibble) : Nibble := isboxTable.getD m.toNat 0

/-- `PBOX`: position `i` maps to position `(i mod 4)*4 + (i div 4)` (R73). -/
def pbox (i : Nat) : Nat := i % 4 * 4 + i / 4

/-- Nibble `j` of a block, `v[4j+3 : 4j]` (00_scope.md section 5). -/
def nib (v : Word) (j : Nat) : Nibble := v.extractLsb' (4 * j) 4

/-- `SubLayer` (R75): the S-box on each nibble, each put back at its own offset. -/
def subLayer (v : Word) : Word := sbox (nib v 3) ++ sbox (nib v 2) ++ sbox (nib v 1) ++ sbox (nib v 0)

/-- `InvSubLayer` (R76). -/
def invSubLayer (v : Word) : Word := isbox (nib v 3) ++ isbox (nib v 2) ++ isbox (nib v 1) ++ isbox (nib v 0)

/-- Bit `i` of `v`, moved to position `PBOX(i)`, alone in a word: the summand `v[i] * 2^PBOX(i)` of R77. -/
def movedBit (v : Word) (i : Nat) : Word := ((v >>> i) &&& 1#16) <<< pbox i

/-- `PermLayer` (R77): the bit at position `i` of the input is written to position `PBOX(i)` of the output,
for every `i` in 0..15. The summands have no one bit in common, so their sum is their union. -/
def permLayer (v : Word) : Word := (List.range 16).foldl (fun w i => w ||| movedBit v i) 0#16

/-- `Mix` (R79). -/
def mix (v k : Word) : Word := v ^^^ k

/-- `FullRound` (R90). -/
def fullRound (v k : Word) : Word := permLayer (subLayer (mix v k))

/-- `LastRound` (R91): no permutation; `ka` is mixed first and `kb` last. -/
def lastRound (v ka kb : Word) : Word := mix (subLayer (mix v ka)) kb

/-- `InvFullRound` (R92): the permutation before the inverse substitution. -/
def invFullRound (v k : Word) : Word := mix (invSubLayer (permLayer v)) k

/-- `InvLastRound` (R93): `kb` is mixed first and `ka` last. -/
def invLastRound (v ka kb : Word) : Word := mix (invSubLayer (mix v kb)) ka

/-- Entry `r` of a key sequence. Every rule names an index below the sequence's length; past the end the
model reads 0 (log entry 8). -/
def keyAt (keys : List Word) (r : Nat) : Word := keys.getD r 0

/-- The loop of R110: `n` full rounds, keys `0 .. n-1` in index order. -/
def encryptRounds (keys : List Word) : Nat → Word → Word
  | 0, v => v
  | n + 1, v => fullRound (encryptRounds keys n v) (keyAt keys n)

/-- `Encrypt(R, keys, p)` (R110): `R - 1` full rounds and the last round. -/
def encrypt (R : Nat) (keys : List Word) (p : Word) : Word :=
  lastRound (encryptRounds keys (R - 1) p) (keyAt keys (R - 1)) (keyAt keys R)

/-- The loop of R111: `n` inverse full rounds, keys `n-1` down to `0`. -/
def decryptRounds (keys : List Word) : Nat → Word → Word
  | 0, v => v
  | n + 1, v => decryptRounds keys n (invFullRound v (keyAt keys n))

/-- `Decrypt(R, keys, c)` (R111): the inverse of the last round, then `R - 1` inverse full rounds. -/
def decrypt (R : Nat) (keys : List Word) (c : Word) : Word :=
  decryptRounds keys (R - 1) (invLastRound c (keyAt keys (R - 1)) (keyAt keys R))

/-- What round number `r` (from 0) of an encryption makes of `v` (R115). -/
def encryptRound (R : Nat) (keys : List Word) (r : Nat) (v : Word) : Word :=
  if r < R - 1 then fullRound v (keyAt keys r) else lastRound v (keyAt keys (R - 1)) (keyAt keys R)

/-- What step number `r` (from 0) of a decryption makes of `v` (R116). -/
def decryptRound (R : Nat) (keys : List Word) (r : Nat) (v : Word) : Word :=
  if r = 0 then invLastRound v (keyAt keys (R - 1)) (keyAt keys R) else invFullRound v (keyAt keys (R - 1 - r))

/-- One round of the operation `dir` (R115, R116). -/
def roundValue (dir : Dir) (R : Nat) (keys : List Word) (r : Nat) (v : Word) : Word :=
  match dir with
  | .enc => encryptRound R keys r v
  | .dec => decryptRound R keys r v

/-- The value after the first `j` rounds of the operation `dir` on `p`: what `S` holds after `j` round steps
(R119). -/
def valueAfter (dir : Dir) (R : Nat) (keys : List Word) (p : Word) : Nat → Word
  | 0 => p
  | j + 1 => roundValue dir R keys j (valueAfter dir R keys p j)

/-- The whole operation `dir` as a pure function (R110, R111). -/
def transform (dir : Dir) (R : Nat) (keys : List Word) (p : Word) : Word :=
  match dir with
  | .enc => encrypt R keys p
  | .dec => decrypt R keys p

/-- The number of one bits of a word (R78 b). -/
def onesCount (v : Word) : Nat := (List.range 16).countP fun i => v.getLsbD i

end Sys2Proof.Machine
end

