-- ==== Sys2Proof/Machine/Flags.lean ====
section
/-! DEFINITION. The hardware has no flags, condition codes or stored status (10_state.md rule R20). What stands
in their place is the response of a command: the status code (60_exceptions.md rule R140) and the data result
(30_encoding.md rule R60). -/

namespace Sys2Proof.Machine

/-- The number of a status code on the port `rsp_status` (R140). -/
def Status.code : Status → BitVec 4
  | .ok => 0
  | .invalidBlock => 1
  | .insufficientKey => 2
  | .missingKey => 3
  | .unsupportedKey => 4
  | .illegalCmd => 5
  | .keyIndex => 6
  | .keyFull => 7

/-- The bit `DIR` holds: 0 for `ENC`, 1 for `DEC` (R17). -/
def Dir.bit : Dir → BitVec 1
  | .enc => 0
  | .dec => 1

/-- `zext_16(KN)`, the data result of `KPUSH` (R60, R133, R135). -/
def countData (kn : Nat) : Word := BitVec.ofNat 16 kn

/-- The output ports of R10. `cmd_ready` equals `NOT BUSY`. -/
def State.cmdReady (s : State) : Bool := !s.BUSY

/-- The port `busy`, a copy of `BUSY` (R10). -/
def State.busyPort (s : State) : Bool := s.BUSY

/-- The port `rsp_valid` (R10). -/
def State.rspValid (s : State) : Bool := s.rsp.isSome

/-- The port `rsp_status`; the spec gives it a value only while `rsp_valid = 1` (R10). -/
def State.rspStatus (s : State) : Option (BitVec 4) := s.rsp.map fun r => r.status.code

/-- The port `rsp_rdata`; the spec gives it a value only while `rsp_valid = 1` (R10). -/
def State.rspRdata (s : State) : Option Word := s.rsp.map Response.rdata

/-- A response the core may produce (R60, R140): never code 1 or 4, and `rdata = 0` on every error. -/
def Response.legal (r : Response) : Bool :=
  match r.status with
  | .ok => true
  | .invalidBlock => false
  | .unsupportedKey => false
  | .insufficientKey => r.rdata == 0
  | .missingKey => r.rdata == 0
  | .illegalCmd => r.rdata == 0
  | .keyIndex => r.rdata == 0
  | .keyFull => r.rdata == 0

end Sys2Proof.Machine
end

