-- ==== Sys2Proof/Machine/Operands.lean ====
section
/-! DEFINITION. The operand forms (30_encoding.md rule R52, 43_state_and_keys.md rule R135): a key index
`IDX`, the pair `IDX`, `IDX + 1`, the data operand (used whole, so it needs no operation), and the implicit
registers `S`, `K`, `KN`. -/

namespace Sys2Proof.Machine

/-- `K[i]`, a key-store read (20_memory.md rule R31); it has no side effect. Every rule that reads guards it
with `i < KN` (10_state.md rule R15); past the end of the store the model reads 0 (log entry 8). -/
def State.readKey (s : State) (i : Nat) : Word := s.K.getD i 0

/-- The guard of `MIX`, `RND`, `IRND` (R31, R146): the named entry is valid. -/
def State.keyValid (s : State) (idx : Nat) : Bool := decide (idx < s.KN)

/-- The guard of `LRND`, `ILRND` (R31, R146): both entries of the pair are valid. `idx + 1` is a natural
number and does not wrap (R52). -/
def State.keyPairValid (s : State) (idx : Nat) : Bool := decide (idx + 1 < s.KN)

/-- What stands at the core's input ports at the coming edge; past the end of the host's list nothing is
presented and the sequencer steps (log entry 3). -/
def State.portIn (s : State) : Edge := s.inputs.headD { rst := false, command := none, tick := true }

end Sys2Proof.Machine
end

