-- ==== Sys2Proof/Machine/Ops.lean ====
section
/-! DEFINITION. The named operations over the registers: the only places that write a register. `raise` is
TAKING AN EXCEPTION on this hardware (60_exceptions.md rules R141, R150): no register is saved because none
is changed, nothing vectors, and there is no return (R151). -/

namespace Sys2Proof.Machine

/-- `respond(st, v)`: present a response (00_scope.md section 5, R60). -/
def State.respond (st : Status) (v : Word) (s : State) : State := { s with rsp := some { status := st, rdata := v } }

/-- `raise <Name>` (R141): no register changes and the response is `(code, 0x0000)`. -/
def State.raise (st : Status) (s : State) : State := s.respond st 0x0000

/-- `S <- v` (R12). -/
def State.writeBlock (v : Word) (s : State) : State := { s with S := v }

/-- `S <- v; respond(OK, S)`, the ending of every command that writes `S` and answers at once (R60). -/
def State.answerBlock (v : Word) (s : State) : State := (s.writeBlock v).respond .ok v

/-- `K[KN] <- v; KN <- KN + 1`, the only write of the key store (20_memory.md rule R32). -/
def State.appendKey (v : Word) (s : State) : State := { s with K := s.K.set s.KN v, KN := s.KN + 1 }

/-- `KN <- 0` (R132). The bits of the entries stay; all of them become invalid (R15). -/
def State.dropKeys (s : State) : State := { s with KN := 0 }

/-- A command on one named key: `raise KeyIndex` unless the entry is valid, else `S <- f(K[idx])` (R80, R95,
R96, R146). -/
def State.withKey (idx : Nat) (f : Word → Word) (s : State) : State :=
  if s.keyValid idx then s.answerBlock (f (s.readKey idx)) else s.raise .keyIndex

/-- A command on the pair of keys `idx`, `idx + 1` (R97, R98, R146). -/
def State.withKeyPair (idx : Nat) (f : Word → Word → Word) (s : State) : State :=
  if s.keyPairValid idx then s.answerBlock (f (s.readKey idx) (s.readKey (idx + 1))) else s.raise .keyIndex

/-- Acceptance of `ENC` or `DEC` after its checks (42_drivers.md rule R121): no response yet. -/
def State.accept (dir : Dir) (p : Word) (s : State) : State :=
  { s with S := p, DIR := dir, RC := 0, BUSY := true, rsp := none }

/-- The two checks of `ENC` and `DEC`, in the order of R113, R114 and 60_exceptions.md rule R149, and then
`ok`, the continuation of the command. -/
def State.whenKeysComplete (ok : State → State) (s : State) : State :=
  if s.KN = 0 then s.raise .missingKey
  else if s.KN < s.cfg.keyCount then s.raise .insufficientKey
  else ok s

/-- An edge has passed: the host's next input is the next one of its list, and a response stays on the port
for one cycle only (R10). -/
def State.passEdge (s : State) : State := { s with rsp := none, inputs := s.inputs.tail }

/-- The edge of a synchronous reset (70_reset_and_hazards.md rules R160, R162): the core takes its reset
values, whatever was running; the build parameter and the inputs to come are not the core's registers. -/
def State.resetEdge (s : State) : State := { State.resetOf s.cfg with inputs := s.inputs }

end Sys2Proof.Machine
end

