-- ==== Sys2Proof/Machine/Driver.lean ====
section
/-! DEFINITION. The driver commands `ENC`, `DEC` and the sequencer that runs them (42_drivers.md). The meaning of
the command is its checks and its acceptance (R113, R114, R121); the round steps (R115 to R118) are the
sequencer's own, one a step of the machine. -/

namespace Sys2Proof.Machine

/-- `ENC #imm` (R113, R121). -/
def execEnc (imm : Word) (s : State) : Host.Outcome State Fault Refusal :=
  .next (s.whenKeysComplete (State.accept .enc imm))

/-- `DEC #imm` (R114, R121). -/
def execDec (imm : Word) (s : State) : Host.Outcome State Fault Refusal :=
  .next (s.whenKeysComplete (State.accept .dec imm))

/-- The direction and the block of a driver command; `none` for a command that its accepting step completes
(R11). -/
def driver? : Instr → Option (Dir × Word)
  | .enc imm => some (.enc, imm)
  | .dec imm => some (.dec, imm)
  | .lds _ => none
  | .rds => none
  | .kclr => none
  | .kpush _ => none
  | .mix _ => none
  | .mixi _ => none
  | .sub => none
  | .isub => none
  | .perm => none
  | .rnd _ => none
  | .irnd _ => none
  | .lrnd _ => none
  | .ilrnd _ => none

/-- The value a round step writes to `S` (R115 for `ENC`, R116 for `DEC`). -/
def State.nextBlock (s : State) : Word := roundValue s.DIR s.cfg.rounds s.K s.RC s.S

/-- Advance (R117), after `S` is written: the last round step ends the operation and answers with the new
`S` (R118); any other counts. -/
def State.advance (s : State) : State :=
  if s.RC = s.cfg.rounds - 1 then ({ s with BUSY := false, RC := 0 }).respond .ok s.S
  else { s with RC := s.RC + 1 }

/-- One round step of the sequencer (R115 to R117), enabled while `BUSY = 1`. -/
def State.roundStep (s : State) : State := (s.writeBlock s.nextBlock).advance

end Sys2Proof.Machine
end

