-- ==== Sys2Proof/Machine/Layer.lean ====
section
/-! DEFINITION. The layer commands: `MIX`, `MIXI`, `SUB`, `ISUB`, `PERM` (40_layers.md section 5). -/

namespace Sys2Proof.Machine

/-- `MIX k<idx>` (R80). -/
def execMix (idx : Nat) (s : State) : Host.Outcome State Fault Refusal := .next (s.withKey idx (mix s.S))

/-- `MIXI #imm` (R81): it does not read the key store. -/
def execMixi (imm : Word) (s : State) : Host.Outcome State Fault Refusal := .next (s.answerBlock (mix s.S imm))

/-- `SUB` (R82). -/
def execSub (s : State) : Host.Outcome State Fault Refusal := .next (s.answerBlock (subLayer s.S))

/-- `ISUB` (R83). -/
def execIsub (s : State) : Host.Outcome State Fault Refusal := .next (s.answerBlock (invSubLayer s.S))

/-- `PERM` (R84). -/
def execPerm (s : State) : Host.Outcome State Fault Refusal := .next (s.answerBlock (permLayer s.S))

end Sys2Proof.Machine
end

