-- ==== Sys2Proof/Machine/Round.lean ====
section
/-! DEFINITION. The round commands: `RND`, `IRND`, `LRND`, `ILRND` (41_rounds.md section 2). -/

namespace Sys2Proof.Machine

/-- `RND k<idx>` (R95). -/
def execRnd (idx : Nat) (s : State) : Host.Outcome State Fault Refusal := .next (s.withKey idx (fullRound s.S))

/-- `IRND k<idx>` (R96). -/
def execIrnd (idx : Nat) (s : State) : Host.Outcome State Fault Refusal := .next (s.withKey idx (invFullRound s.S))

/-- `LRND k<idx>` (R97). -/
def execLrnd (idx : Nat) (s : State) : Host.Outcome State Fault Refusal := .next (s.withKeyPair idx (lastRound s.S))

/-- `ILRND k<idx>` (R98). -/
def execIlrnd (idx : Nat) (s : State) : Host.Outcome State Fault Refusal :=
  .next (s.withKeyPair idx (invLastRound s.S))

end Sys2Proof.Machine
end

