-- ==== Sys2Proof/Machine/Store.lean ====
section
/-! DEFINITION. Block register and key store commands: `LDS`, `RDS`, `KCLR`, `KPUSH` (43_state_and_keys.md). -/

namespace Sys2Proof.Machine

/-- `LDS #imm` (R130). -/
def execLds (imm : Word) (s : State) : Host.Outcome State Fault Refusal := .next (s.answerBlock imm)

/-- `RDS` (R131): no register changes. -/
def execRds (s : State) : Host.Outcome State Fault Refusal := .next (s.respond .ok s.S)

/-- `KCLR` (R132). -/
def execKclr (s : State) : Host.Outcome State Fault Refusal := .next (s.dropKeys.respond .ok 0x0000)

/-- `KPUSH #imm` (R133, R147): the response carries the new `KN`. -/
def execKpush (imm : Word) (s : State) : Host.Outcome State Fault Refusal :=
  if s.KN = s.cfg.keyCount then .next (s.raise .keyFull)
  else .next ((s.appendKey imm).respond .ok (countData (s.KN + 1)))

end Sys2Proof.Machine
end

