-- ==== Sys2Proof/Machine/Dispatch.lean ====
section
/-! DEFINITION. One arm for each instruction: its meaning. -/

namespace Sys2Proof.Machine

/-- The meaning of an accepted legal command. -/
def exec (i : Instr) (s : State) : Host.Outcome State Fault Refusal :=
  match i with
  | .lds imm => Sys2Proof.Machine.execLds imm s
  | .rds => Sys2Proof.Machine.execRds s
  | .kclr => Sys2Proof.Machine.execKclr s
  | .kpush imm => Sys2Proof.Machine.execKpush imm s
  | .mix idx => Sys2Proof.Machine.execMix idx s
  | .mixi imm => Sys2Proof.Machine.execMixi imm s
  | .sub => Sys2Proof.Machine.execSub s
  | .isub => Sys2Proof.Machine.execIsub s
  | .perm => Sys2Proof.Machine.execPerm s
  | .rnd idx => Sys2Proof.Machine.execRnd idx s
  | .irnd idx => Sys2Proof.Machine.execIrnd idx s
  | .lrnd idx => Sys2Proof.Machine.execLrnd idx s
  | .ilrnd idx => Sys2Proof.Machine.execIlrnd idx s
  | .enc imm => Sys2Proof.Machine.execEnc imm s
  | .dec imm => Sys2Proof.Machine.execDec imm s

end Sys2Proof.Machine
end

