-- ==== Sys2Proof/Machine/Port.lean ====
section
/-! DEFINITION. One rising clock edge of the core (10_state.md rules R10, R11, R16; 70_reset_and_hazards.md rule
R160): what reset, a round step and an accepted command each do, and which of them takes place. -/

namespace Sys2Proof.Machine

/-- Execution of an accepted command: a legal one runs, an illegal word raises `IllegalCmd` whatever the state
and `wdata` (60_exceptions.md rules R148, R149). -/
def acceptCommand (c : Command) (s : State) : Host.Outcome State Fault Refusal :=
  match decode c with
  | .ok i => exec i s
  | .error _ => .next (s.raise .illegalCmd)

/-- The core at an edge whose inputs are `e`. With `rst = 1` it resets, accepts nothing and takes no round step
(R160). With `cmd_ready = 1` a presented command is accepted and executed (R11). With `cmd_ready = 0`, that is
while `BUSY = 1`, no command is accepted (R11, R16) and a round step takes place when the sequencer completes
one. -/
def coreEdge (e : Edge) (s : State) : Host.Outcome State Fault Refusal :=
  if e.rst then .next s.resetEdge
  else if s.cmdReady then
    match e.command with
    | some c => acceptCommand c s
    | none => .next s
  else if e.tick then .next s.roundStep
  else .next s

/-- One edge: the inputs are taken from the host's list, and the response of the edge before it is over. -/
def clockEdge (s : State) : Host.Outcome State Fault Refusal := coreEdge s.portIn s.passEdge

/-- An edge at which the host presents `c` and does not reset. -/
def presentEdge (c : Command) : Edge := { rst := false, command := some c, tick := true }

/-- An edge at which the host presents nothing and the sequencer completes a round step. -/
def idleEdge : Edge := { rst := false, command := none, tick := true }

/-- The host presents `c` at the very next edge and the core is ready for it (log entry 9). -/
def State.presentNext (c : Command) (s : State) : State :=
  { s with inputs := presentEdge c :: s.inputs, BUSY := false, RC := 0 }

end Sys2Proof.Machine
end

