-- ==== Sys2Proof/Machine/Step.lean ====
section
/-! DEFINITION. The step function: one step of the model is one rising edge of `clk`. -/

namespace Sys2Proof.Machine

/-- One step. -/
def step (s : State) : Host.Outcome State Fault Refusal := clockEdge s

/-- `s` with the command whose bits are `w` presented at the next edge, so that the next step accepts and runs
exactly it (log entries 4 and 9). -/
def State.withFetchWord (s : State) (nbits w : Nat) : State := s.presentNext (commandOfTableWord nbits w)

end Sys2Proof.Machine
end

