-- ==== Sys2Proof/Machine/Assembler.lean ====
section
/-! DEFINITION. The assembler syntax of 30_encoding.md rule R58: one command a line, `;` starts a comment, three
operand forms. Text is a list of characters. Details R58 leaves open are log entry 10. -/

namespace Sys2Proof.Machine

/-- A decimal digit. -/
def decDigit? (c : Char) : Option Nat :=
  if 48 ≤ c.toNat ∧ c.toNat ≤ 57 then some (c.toNat - 48) else none

/-- A hexadecimal digit, of either case. -/
def hexDigit? (c : Char) : Option Nat :=
  if 65 ≤ c.toNat ∧ c.toNat ≤ 70 then some (c.toNat - 55)
  else if 97 ≤ c.toNat ∧ c.toNat ≤ 102 then some (c.toNat - 87)
  else decDigit? c

/-- The value of a list of digits, after `acc`; `none` if one is no digit. -/
def digitsValue? (base : Nat) (digit? : Char → Option Nat) : Nat → List Char → Option Nat
  | acc, [] => some acc
  | acc, c :: cs =>
    match digit? c with
    | some d => digitsValue? base digit? (acc * base + d) cs
    | none => none

/-- A decimal number, at least one digit, below `bound`. -/
def decimal? (bound : Nat) (cs : List Char) : Option Nat :=
  if cs.isEmpty then none
  else match digitsValue? 10 decDigit? 0 cs with
    | some n => if n < bound then some n else none
    | none => none

/-- `<imm16>`: `0x` and four hexadecimal digits, or a decimal number 0..65535. -/
def imm16? : List Char → Option Word
  | ['0', 'x', a, b, c, d] => (digitsValue? 16 hexDigit? 0 [a, b, c, d]).map (BitVec.ofNat 16)
  | cs => (decimal? 65536 cs).map (BitVec.ofNat 16)

/-- The commands without an operand. -/
def bareInstr? (m : List Char) : Option Instr :=
  if m = "RDS".toList then some .rds
  else if m = "KCLR".toList then some .kclr
  else if m = "SUB".toList then some .sub
  else if m = "ISUB".toList then some .isub
  else if m = "PERM".toList then some .perm
  else none

/-- The commands with a data operand. -/
def immInstr? (m : List Char) (imm : Word) : Option Instr :=
  if m = "LDS".toList then some (.lds imm)
  else if m = "KPUSH".toList then some (.kpush imm)
  else if m = "MIXI".toList then some (.mixi imm)
  else if m = "ENC".toList then some (.enc imm)
  else if m = "DEC".toList then some (.dec imm)
  else none

/-- The commands with a key index. -/
def indexInstr? (m : List Char) (idx : Nat) : Option Instr :=
  if m = "MIX".toList then some (.mix idx)
  else if m = "RND".toList then some (.rnd idx)
  else if m = "IRND".toList then some (.irnd idx)
  else if m = "LRND".toList then some (.lrnd idx)
  else if m = "ILRND".toList then some (.ilrnd idx)
  else none

/-- A mnemonic and the text of its operand. -/
def assembleParts (m : List Char) : List Char → Option Instr
  | [] => bareInstr? m
  | '#' :: cs => (imm16? cs).bind (immInstr? m)
  | 'k' :: cs => (decimal? 256 cs).bind (indexInstr? m)
  | _ => none

/-- A blank character. -/
def isBlank (c : Char) : Bool := c == ' ' || c == '\t'

/-- A text without the blanks at its two ends. -/
def trimBlanks (cs : List Char) : List Char := ((cs.dropWhile isBlank).reverse.dropWhile isBlank).reverse

/-- The instruction a line holds, its comment left out. -/
def parseLine (line : List Char) : Option Instr :=
  let text := trimBlanks (line.takeWhile (· != ';'))
  assembleParts (text.takeWhile fun c => !isBlank c) (trimBlanks (text.dropWhile fun c => !isBlank c))

/-- The command a line is assembled into (R58). -/
def assembleLine (line : List Char) : Option Command := (parseLine line).map encode

/-- A hexadecimal digit as it is written. -/
def hexChar (n : Nibble) : Char := "0123456789ABCDEF".toList.getD n.toNat '0'

/-- A 16-bit number as `0x` and four hexadecimal digits. -/
def imm16Text (v : Word) : List Char :=
  ['0', 'x', hexChar (v.extractLsb' 12 4), hexChar (v.extractLsb' 8 4), hexChar (v.extractLsb' 4 4),
    hexChar (v.extractLsb' 0 4)]

/-- An instruction as R58 writes it. -/
def listing (i : Instr) : List Char :=
  i.mnemonic.toList ++
    match i.data?, i.index? with
    | some v, _ => " #".toList ++ imm16Text v
    | none, some idx => " k".toList ++ Nat.toDigits 10 idx
    | none, none => []

end Sys2Proof.Machine
end

