-- ==== Sys2Proof/Machine/Program.lean ====
section
/-! DEFINITION. Programs: the architectural machine with atomic commands (10_state.md rule R11: `step : State x
Command -> State x Response`, applied to the commands in order; 42_drivers.md rules R113, R114, R119), the run
of a host program (70_reset_and_hazards.md rule R173), the pseudo-instructions (30_encoding.md rule R59), and the
edges at which a host presents a program to the sequencer machine (R170). -/

namespace Sys2Proof.Machine

/-- `ENC` or `DEC` as one atomic transition, its checks passed (R113, R114): `S` becomes the result and is
answered. `DIR` is left as its acceptance writes it (R17). -/
def State.driveAtOnce (dir : Dir) (p : Word) (s : State) : State :=
  ({ s with DIR := dir }).answerBlock (transform dir s.cfg.rounds s.K p)

/-- An instruction of the atomic machine: the drivers as R113 and R114 write them, every other as it is. -/
def execAtomic (i : Instr) (s : State) : Host.Outcome State Fault Refusal :=
  match driver? i with
  | some (dir, p) => .next (s.whenKeysComplete (State.driveAtOnce dir p))
  | none => exec i s

/-- A command of the atomic machine (R11, R148). -/
def commandAtomic (c : Command) (s : State) : Host.Outcome State Fault Refusal :=
  match decode c with
  | .ok i => execAtomic i s
  | .error _ => .next (s.raise .illegalCmd)

/-- Go on from an outcome that is a next state. -/
def andThen (o : Host.Outcome State Fault Refusal) (f : State → Host.Outcome State Fault Refusal) :
    Host.Outcome State Fault Refusal :=
  match o with
  | .next t => f t
  | .fault r => .fault r
  | .refused r => .refused r

/-- A sequence of atomic instructions, each standing alone (R59): an error does not stop it (R151). -/
def execAll : List Instr → State → Host.Outcome State Fault Refusal
  | [], s => .next s
  | i :: is, s => andThen (execAtomic i s) (execAll is)

/-- The run of a host program (R173): the state at its end, and the list of responses in order. -/
def runAtomic : List Command → State → Host.Outcome (State × List Response) Fault Refusal
  | [], s => .next (s, [])
  | c :: cs, s =>
    match commandAtomic c s with
    | .fault r => .fault r
    | .refused r => .refused r
    | .next t =>
      match runAtomic cs t with
      | .next (u, rs) => .next (u, t.rsp.toList ++ rs)
      | .fault r => .fault r
      | .refused r => .refused r

/-- `KLOAD v0, ..., vn` (R59). -/
def kload (keys : List Word) : List Instr := .kclr :: keys.map .kpush

/-- `ENCK p, v0, ..., vR` (R59): the source's `encrypt(plaintext, keys)`. -/
def enck (p : Word) (keys : List Word) : List Instr := kload keys ++ [.enc p]

/-- `DECK c, v0, ..., vR` (R59): the source's `decrypt(ciphertext, keys)`. -/
def deck (c : Word) (keys : List Word) : List Instr := kload keys ++ [.dec c]

/-- The response on the port is `OK`. -/
def State.answeredOk (s : State) : Bool :=
  match s.rsp with
  | some r => r.status == .ok
  | none => false

/-- The expansion of a pseudo-instruction: it stops at the first command that answers a status other than
`OK`, and its outcome is then that status (R59), the one left on the response port. -/
def runPseudo : List Instr → State → Host.Outcome State Fault Refusal
  | [], s => .next s
  | i :: is, s => andThen (execAtomic i s) fun t => if t.answeredOk then runPseudo is t else .next t

/-- The command is an `ENC` or `DEC` that passes its checks, so it runs on the sequencer (R121). -/
def State.startsDriver (s : State) (c : Command) : Bool :=
  match decode c with
  | .ok i => (driver? i).isSome && decide (s.cfg.keyCount ≤ s.KN)
  | .error _ => false

/-- The state the atomic machine leaves after `c`. -/
def State.afterCommand (s : State) (c : Command) : State :=
  match commandAtomic c s with
  | .next t => t
  | .fault _ => s
  | .refused _ => s

/-- The edges at which a host presents a program, each command as soon as the core is ready for it: a driver
command that runs is followed by the `R` edges of its round steps (R117, R170). -/
def schedule : List Command → State → List Edge
  | [], _ => []
  | c :: cs, s =>
    presentEdge c :: ((if s.startsDriver c then List.replicate s.cfg.rounds idleEdge else [])
      ++ schedule cs (s.afterCommand c))

/-- `n` steps, one after the other (the same as `Host.Core.run` of this machine: lemma `run_eq_hostRun`). -/
def run : Nat → State → Host.Outcome State Fault Refusal
  | 0, s => .next s
  | n + 1, s => andThen (step s) (run n)

/-- The responses the core presents in the next `n` steps, in order. -/
def responses : Nat → State → List Response
  | 0, _ => []
  | n + 1, s =>
    match step s with
    | .next t => t.rsp.toList ++ responses n t
    | .fault _ => []
    | .refused _ => []

/-- The number of edges at which the sequencer completes a round step, if one is running. -/
def tickCount (es : List Edge) : Nat := es.countP Edge.tick

/-- No edge of the list resets the core. -/
def noReset (es : List Edge) : Bool := es.all fun e => !e.rst

/-- `n` round steps of the sequencer. -/
def roundSteps : Nat → State → State
  | 0, s => s
  | n + 1, s => (roundSteps n s).roundStep

end Sys2Proof.Machine
end

