-- ==== Sys2Proof/Safety.lean ====
section
/-! DEFINITION. What a well-formed state is (the legal values of 10_state.md's field summary), which states no
run leaves, and what a safe run is. -/

namespace Sys2Proof.Machine

/-- The key store has its `R + 1` entries and `KN` is at most `R + 1` (R13, R14). -/
abbrev State.storeWf (s : State) : Prop := s.K.length = s.cfg.keyCount ∧ s.KN ≤ s.cfg.keyCount

/-- The sequencer: `RC` is in `0..R-1` and is 0 while `BUSY = 0` (R18); an operation runs only over a full
store and presents no response before its last step (R16, R118, R120). -/
abbrev State.sequencerWf (s : State) : Prop :=
  s.RC < s.cfg.rounds ∧ (s.BUSY = false → s.RC = 0) ∧ (s.BUSY = true → s.KN = s.cfg.keyCount ∧ s.rsp = none)

/-- A response on the port is one the core may produce (R60, R140). -/
abbrev State.responseWf (s : State) : Prop := s.rsp.all Response.legal = true

/-- The invariant of the core. -/
abbrev State.wf (s : State) : Prop := s.cfg.wf ∧ s.storeWf ∧ s.sequencerWf ∧ s.responseWf

/-- A run of `n` steps that no fault and no refusal ends. -/
def State.runsSafely (s : State) (n : Nat) : Prop := ∃ t, run n s = .next t

end Sys2Proof.Machine
end

