-- ==== Sys2Proof/Certificates/Slice0/Obligations.lean ====
section
/-! DEFINITION. The statements for the provers. Each docstring says which rule of the spec it formalises. A
next state is written as a record update of the state before, so it says the whole frame: every field that the
update does not name keeps its value. -/

open Sys2Proof Sys2Proof.Machine

/-! ## Encoding -/

/-- Rules R51 to R54: decoding the words of a well-formed instruction gives it back, every operand at every
value the encoding admits. -/
def Obligations.DecodeOfEncode : Prop :=
  ∀ i : Instr, i.WellFormed → decode (encode i) = .ok i

/-- Rules R50, R52, R54: each legal word has one meaning. A command that decodes is the encoding of a well-formed
instruction, but for a `wdata` that the instruction ignores. -/
def Obligations.EncodeOfDecode : Prop :=
  ∀ (c : Command) (i : Instr), decode c = .ok i →
    i.WellFormed ∧ (encode i).cmd = c.cmd ∧
    (∀ v, i.data? = some v → c.wdata = v) ∧ (i.data? = none → ∀ w, decode ⟨c.cmd, w⟩ = .ok i)

/-- Rule R55 and the algorithm of R54: exactly which words are illegal, each of the three ways; the all-zero and
the all-one word are. -/
def Obligations.IllegalExactly : Prop :=
  (∀ c : Command,
    (decode c = .error .opcodeZero ↔ opField c.cmd = 0) ∧
    (decode c = .error .reservedNotZero ↔ opField c.cmd ≠ 0 ∧ rsvField c.cmd ≠ 0) ∧
    (decode c = .error .indexNotZero ↔
      opField c.cmd ≠ 0 ∧ rsvField c.cmd = 0 ∧ idxField c.cmd ≠ 0 ∧
      opField c.cmd ≠ 0x5 ∧ opField c.cmd ≠ 0xA ∧ opField c.cmd ≠ 0xB ∧ opField c.cmd ≠ 0xC ∧
      opField c.cmd ≠ 0xD)) ∧
  legalWord 0x0000 = false ∧ legalWord 0xFFFF = false

/-- Rule R53: a command word selects the row of the opcode map that covers it, and a word that no row covers is
illegal; no two rows cover one word. -/
def Obligations.DecodeFollowsTheOpcodeMap : Prop :=
  (∀ c : Command,
    (∀ i, decode c = .ok i → ∃ row ∈ opcodeTable, row.covers c.cmd = true ∧ row.mnemonic = i.mnemonic) ∧
    (∀ row ∈ opcodeTable, row.covers c.cmd = true → ∃ i, decode c = .ok i ∧ i.mnemonic = row.mnemonic)) ∧
  opcodeTable.Pairwise (fun r q => ∀ w : Word, ¬ (r.covers w = true ∧ q.covers w = true))

/-- 95_test_vectors.md section 7: words written out from the encoding decode to what they stand for. -/
def Obligations.WrittenWordsDecode : Prop :=
  ∀ w : Word,
    decode ⟨0x1000, w⟩ = .ok (.lds w) ∧ decode ⟨0x2000, w⟩ = .ok .rds ∧ decode ⟨0x3000, w⟩ = .ok .kclr ∧
    decode ⟨0x4000, w⟩ = .ok (.kpush w) ∧ decode ⟨0x5007, w⟩ = .ok (.mix 7) ∧
    decode ⟨0x50FF, w⟩ = .ok (.mix 255) ∧ decode ⟨0x6000, w⟩ = .ok (.mixi w) ∧
    decode ⟨0x7000, w⟩ = .ok .sub ∧ decode ⟨0x8000, w⟩ = .ok .isub ∧ decode ⟨0x9000, w⟩ = .ok .perm ∧
    decode ⟨0xA003, w⟩ = .ok (.rnd 3) ∧ decode ⟨0xB003, w⟩ = .ok (.irnd 3) ∧
    decode ⟨0xC003, w⟩ = .ok (.lrnd 3) ∧ decode ⟨0xD003, w⟩ = .ok (.ilrnd 3) ∧
    decode ⟨0xE000, w⟩ = .ok (.enc w) ∧ decode ⟨0xF000, w⟩ = .ok (.dec w) ∧
    decode ⟨0x0FFF, w⟩ = .error .opcodeZero ∧ decode ⟨0x7100, w⟩ = .error .reservedNotZero ∧
    decode ⟨0x5100, w⟩ = .error .reservedNotZero ∧ decode ⟨0x7001, w⟩ = .error .indexNotZero ∧
    decode ⟨0x2080, w⟩ = .error .indexNotZero

/-- Rule R58: the text of a well-formed instruction is assembled into its words. -/
def Obligations.AssembleOfListing : Prop :=
  ∀ i : Instr, i.WellFormed → assembleLine (listing i) = some (encode i)

/-! ## What one edge does -/

/-- Rule R11: when the host presents a legal command and the core is ready, the step is the instruction's
meaning, the edge's inputs taken and the response of the edge before it over. -/
def Obligations.StepRunsTheDecodedCommand : Prop :=
  ∀ (s : State) (c : Command) (i : Instr) (tick : Bool) (es : List Edge),
    s.BUSY = false → decode c = .ok i →
    step { s with inputs := ⟨false, some c, tick⟩ :: es } = exec i { s with inputs := es, rsp := none }

/-- Rule R148: an illegal word answers `ERR_ILLEGAL_CMD` and 0 whatever the state, `wdata` plays no part, and a
step that accepts one changes no register. -/
def Obligations.IllegalCommandAnswersItsCode : Prop :=
  (∀ (s : State) (c : Command) (w : Illegal), decode c = .error w →
    acceptCommand c s = .next { s with rsp := some ⟨.illegalCmd, 0x0000⟩ } ∧
    ∀ v, decode ⟨c.cmd, v⟩ = .error w) ∧
  (∀ (s : State) (c : Command) (w : Illegal) (tick : Bool) (es : List Edge),
    s.BUSY = false → decode c = .error w →
    step { s with inputs := ⟨false, some c, tick⟩ :: es } =
      .next { s with inputs := es, rsp := some ⟨.illegalCmd, 0x0000⟩ })

/-- Rules R11, R16, R170: while an operation runs, a presented command is not accepted and has no effect, and
between round steps nothing changes; with nothing presented to a ready core nothing happens and nothing is
answered. -/
def Obligations.NothingIsAcceptedWhileBusy : Prop :=
  (∀ (s : State) (c : Option Command) (tick : Bool) (es : List Edge), s.BUSY = true →
    step { s with inputs := ⟨false, c, tick⟩ :: es } = step { s with inputs := ⟨false, none, tick⟩ :: es } ∧
    step { s with inputs := ⟨false, c, false⟩ :: es } = .next { s with inputs := es, rsp := none } ∧
    step { s with inputs := ⟨false, c, true⟩ :: es } = .next ({ s with inputs := es, rsp := none }).roundStep) ∧
  (∀ (s : State) (tick : Bool) (es : List Edge), s.BUSY = false →
    step { s with inputs := ⟨false, none, tick⟩ :: es } = .next { s with inputs := es, rsp := none })

/-- Rules R24, R160, R162: an edge with `rst = 1` gives the reset values, whatever is running and whatever is
presented, and answers nothing. The key entries are not spoken of: the spec leaves them unspecified. -/
def Obligations.ResetEdgeGivesResetValues : Prop :=
  ∀ (s : State) (c : Option Command) (tick : Bool) (es : List Edge),
    ∃ t, step { s with inputs := ⟨true, c, tick⟩ :: es } = .next t ∧
      t.S = 0x0000 ∧ t.KN = 0 ∧ t.BUSY = false ∧ t.DIR = .enc ∧ t.RC = 0 ∧ t.rsp = none ∧ t.cfg = s.cfg ∧
      t.inputs = es ∧ t.K.length = s.cfg.rounds + 1

/-- Rule R24: the values after reset, and no key entry is valid. -/
def Obligations.ResetValues : Prop :=
  ∀ c : Config,
    (State.resetOf c).S = 0x0000 ∧ (State.resetOf c).KN = 0 ∧ (∀ i, (State.resetOf c).keyValid i = false) ∧
    (State.resetOf c).BUSY = false ∧ (State.resetOf c).DIR.bit = 0 ∧ (State.resetOf c).RC = 0 ∧
    (State.resetOf c).rspValid = false ∧ State.reset = State.resetOf { rounds := 5 }

/-- Rule R10: the output ports. `cmd_ready` equals `NOT BUSY`, `busy` is a copy of `BUSY`, and the numbers on
`rsp_status` are those of R140. -/
def Obligations.OutputPorts : Prop :=
  (∀ s : State, s.cmdReady = !s.BUSY ∧ s.busyPort = s.BUSY ∧
    (s.rspValid = true ↔ ∃ r, s.rsp = some r ∧ s.rspStatus = some r.status.code ∧ s.rspRdata = some r.rdata)) ∧
  [Status.ok, .invalidBlock, .insufficientKey, .missingKey, .unsupportedKey, .illegalCmd, .keyIndex,
    .keyFull].map Status.code = [0, 1, 2, 3, 4, 5, 6, 7]

/-! ## The block register and the key store -/

/-- Rule R130, `LDS #imm`. -/
def Obligations.LdsLoadsTheBlock : Prop :=
  (∀ v : Word, decode ⟨0x1000, v⟩ = .ok (.lds v)) ∧
  ∀ (v : Word) (s : State), exec (.lds v) s = .next { s with S := v, rsp := some ⟨.ok, v⟩ }

/-- Rule R131, `RDS`: no state changes, and reading again answers the same; after reset it answers 0. -/
def Obligations.RdsReadsTheBlock : Prop :=
  (∀ w : Word, decode ⟨0x2000, w⟩ = .ok .rds) ∧
  (∀ s : State, exec .rds s = .next { s with rsp := some ⟨.ok, s.S⟩ } ∧
    andThen (exec .rds s) (exec .rds) = exec .rds s) ∧
  ∀ c : Config, exec .rds (State.resetOf c) = .next { State.resetOf c with rsp := some ⟨.ok, 0x0000⟩ }

/-- Rule R132, `KCLR`: the key count becomes 0, the bits of the entries stay (R15), every entry is invalid, and
then `ENC` and `DEC` raise `MissingKey`. -/
def Obligations.KclrDropsTheKeys : Prop :=
  (∀ w : Word, decode ⟨0x3000, w⟩ = .ok .kclr) ∧
  ∀ s : State, ∃ t, exec .kclr s = .next t ∧ t = { s with KN := 0, rsp := some ⟨.ok, 0x0000⟩ } ∧
    (∀ i, t.keyValid i = false) ∧
    ∀ p, exec (.enc p) t = .next { t with rsp := some ⟨.missingKey, 0x0000⟩ } ∧
      exec (.dec p) t = .next { t with rsp := some ⟨.missingKey, 0x0000⟩ }

/-- Rule R133, `KPUSH #imm` on a store with room: the key goes to entry `KN`, which then reads as the key; every
other entry and `S` stay; the response is the new count. -/
def Obligations.KpushAppendsAKey : Prop :=
  (∀ v : Word, decode ⟨0x4000, v⟩ = .ok (.kpush v)) ∧
  ∀ (v : Word) (s : State), s.wf → s.KN ≠ s.cfg.rounds + 1 →
    ∃ t, exec (.kpush v) s = .next t ∧
      t = { s with K := s.K.set s.KN v, KN := s.KN + 1, rsp := some ⟨.ok, BitVec.ofNat 16 (s.KN + 1)⟩ } ∧
      (BitVec.ofNat 16 (s.KN + 1)).toNat = s.KN + 1 ∧
      t.readKey s.KN = v ∧ t.keyValid s.KN = true ∧ (∀ j, j ≠ s.KN → t.readKey j = s.readKey j) ∧
      t.K.length = s.K.length

/-- Rules R133, R147: `KPUSH` on a full store raises `KeyFull` and changes nothing. -/
def Obligations.KpushOnAFullStore : Prop :=
  ∀ (v : Word) (s : State), s.KN = s.cfg.rounds + 1 →
    exec (.kpush v) s = .next { s with rsp := some ⟨.keyFull, 0x0000⟩ }

/-! ## The layers -/

/-- Rule R72: the two tables undo each other on all sixteen values, and neither has a fixed point. -/
def Obligations.SboxTablesAreInverse : Prop :=
  ∀ n : Nibble, isbox (sbox n) = n ∧ sbox (isbox n) = n ∧ sbox n ≠ n ∧ isbox n ≠ n

/-- Rules R73, R74: the permutation table transposes the grid, is its own inverse, and is the same from either
end of the word. -/
def Obligations.PboxTransposesTheGrid : Prop :=
  (∀ j < 4, ∀ b < 4, pbox (4 * j + b) = 4 * b + j) ∧ (∀ i < 16, pbox (pbox i) = i) ∧
  (∀ i < 16, pbox (15 - i) = 15 - pbox i) ∧
  (List.range 16).map pbox = [0, 4, 8, 12, 1, 5, 9, 13, 2, 6, 10, 14, 3, 7, 11, 15]

/-- Rules R75, R76: each layer puts its table's value of each nibble at that nibble's place, the two layers undo
each other, and the spec's examples. -/
def Obligations.SubLayersAreInverse : Prop :=
  (∀ (v : Word), ∀ j < 4, nib (subLayer v) j = sbox (nib v j) ∧ nib (invSubLayer v) j = isbox (nib v j)) ∧
  (∀ v : Word, invSubLayer (subLayer v) = v ∧ subLayer (invSubLayer v) = v) ∧
  subLayer 0x0000 = 0x6666 ∧ subLayer 0x0123 = 0x64C5 ∧ subLayer 0xFFFF = 0xBBBB ∧
  invSubLayer 0x6666 = 0x0000 ∧ invSubLayer 0x0000 = 0x4444 ∧ invSubLayer 0xBBBB = 0xFFFF

/-- Rule R77: the bit at position `i` is written to position `PBOX(i)`, bit `b` of nibble `j` of the output is
bit `j` of nibble `b` of the input, and the spec's examples. -/
def Obligations.PermLayerMovesBits : Prop :=
  (∀ (v : Word), ∀ i < 16,
    (permLayer v).getLsbD (pbox i) = v.getLsbD i ∧ (permLayer v).getLsbD i = v.getLsbD (pbox i)) ∧
  (∀ (v : Word), ∀ j < 4, ∀ b < 4, (nib (permLayer v) j).getLsbD b = (nib v b).getLsbD j) ∧
  permLayer 0x0002 = 0x0010 ∧ permLayer 0x000F = 0x1111 ∧ permLayer 0x1234 = 0x016A ∧
  permLayer 0xFFFF = 0xFFFF

/-- Rule R78: the permutation layer is an involution, keeps the number of one bits, is linear over exclusive or,
and its fixed points are the symmetric grids. -/
def Obligations.PermLayerProperties : Prop :=
  (∀ v : Word, permLayer (permLayer v) = v) ∧
  (∀ v : Word, onesCount (permLayer v) = onesCount v) ∧
  (∀ a b : Word, permLayer (a ^^^ b) = permLayer a ^^^ permLayer b) ∧ permLayer 0 = 0 ∧
  (∀ v : Word, permLayer v = v ↔ ∀ j < 4, ∀ b < 4, v.getLsbD (4 * j + b) = v.getLsbD (4 * b + j)) ∧
  permLayer 0xFFFF = 0xFFFF ∧ permLayer 0x8421 = 0x8421 ∧ permLayer 0x1248 = 0x1248

/-- Rule R80, `MIX k<idx>`. -/
def Obligations.MixMixesAStoredKey : Prop :=
  (∀ (b : BitVec 8) (w : Word), decode ⟨0x50#8 ++ b, w⟩ = .ok (.mix b.toNat)) ∧
  ∀ (idx : Nat) (s : State),
    (idx < s.KN →
      exec (.mix idx) s = .next { s with S := s.S ^^^ s.readKey idx, rsp := some ⟨.ok, s.S ^^^ s.readKey idx⟩ }) ∧
    (s.KN ≤ idx → exec (.mix idx) s = .next { s with rsp := some ⟨.keyIndex, 0x0000⟩ }) ∧
    (idx < s.KN → execAll [.mix idx, .mix idx] s = .next { s with rsp := some ⟨.ok, s.S⟩ })

/-- Rule R81, `MIXI #imm`: it does not depend on the key store. -/
def Obligations.MixiMixesItsOperand : Prop :=
  (∀ k : Word, decode ⟨0x6000, k⟩ = .ok (.mixi k)) ∧
  (∀ (k : Word) (s : State),
    exec (.mixi k) s = .next { s with S := s.S ^^^ k, rsp := some ⟨.ok, s.S ^^^ k⟩ }) ∧
  ∀ s : State, exec (.mixi 0x0000) s = .next { s with rsp := some ⟨.ok, s.S⟩ } ∧
    exec (.mixi 0xFFFF) s = .next { s with S := ~~~s.S, rsp := some ⟨.ok, ~~~s.S⟩ }

/-- Rules R82, R83: `SUB` and `ISUB`; neither leaves a value unchanged, and one after the other restores `S`. -/
def Obligations.SubAndIsubApplyTheLayers : Prop :=
  (∀ w : Word, decode ⟨0x7000, w⟩ = .ok .sub ∧ decode ⟨0x8000, w⟩ = .ok .isub) ∧
  (∀ s : State,
    exec .sub s = .next { s with S := subLayer s.S, rsp := some ⟨.ok, subLayer s.S⟩ } ∧
    exec .isub s = .next { s with S := invSubLayer s.S, rsp := some ⟨.ok, invSubLayer s.S⟩ } ∧
    execAll [.sub, .isub] s = .next { s with rsp := some ⟨.ok, s.S⟩ } ∧
    execAll [.isub, .sub] s = .next { s with rsp := some ⟨.ok, s.S⟩ }) ∧
  (∀ v : Word, subLayer v ≠ v) ∧ subLayer 0x081F = 0x614B ∧ invSubLayer 0x614B = 0x081F

/-- Rule R84, `PERM`: twice restores `S`; a symmetric value is unchanged and still answered `OK`. -/
def Obligations.PermAppliesTheLayer : Prop :=
  (∀ w : Word, decode ⟨0x9000, w⟩ = .ok .perm) ∧
  (∀ s : State,
    exec .perm s = .next { s with S := permLayer s.S, rsp := some ⟨.ok, permLayer s.S⟩ } ∧
    execAll [.perm, .perm] s = .next { s with rsp := some ⟨.ok, s.S⟩ } ∧
    ((∀ j < 4, ∀ b < 4, s.S.getLsbD (4 * j + b) = s.S.getLsbD (4 * b + j)) →
      exec .perm s = .next { s with rsp := some ⟨.ok, s.S⟩ })) ∧
  permLayer 0x614B = 0x1A95

/-! ## The rounds -/

/-- Rule R94: the inverse laws of the rounds. -/
def Obligations.RoundsAreInverse : Prop :=
  (∀ v k : Word, invFullRound (fullRound v k) k = v ∧ fullRound (invFullRound v k) k = v) ∧
  (∀ v ka kb : Word, invLastRound (lastRound v ka kb) ka kb = v ∧ lastRound (invLastRound v ka kb) ka kb = v)

/-- Rules R90 to R93, their examples, and the vector of 95_test_vectors.md section 4 that tells the two keys of the
inverse last round apart. -/
def Obligations.RoundExamples : Prop :=
  fullRound 0x1234 0x1A2B = 0x1A95 ∧ fullRound 0xFFFF 0x0001 = 0xF0EF ∧
  lastRound 0x1A95 0x3C4D 0x5E6F = 0x9CCE ∧ lastRound 0xFFFF 0x0001 0x0001 = 0xBBB8 ∧
  invFullRound 0x1A95 0x1A2B = 0x1234 ∧ invFullRound 0x0000 0x0000 = 0x4444 ∧
  invLastRound 0x9CCE 0x3C4D 0x5E6F = 0x1A95 ∧ invLastRound 0x9CCE 0x5E6F 0x3C4D = 0x8AA5

/-- Rules R95, R96: `RND k<idx>` and `IRND k<idx>`, each equal to its three layer commands, and each undone by the
other. -/
def Obligations.RoundCommands : Prop :=
  (∀ (b : BitVec 8) (w : Word),
    decode ⟨0xA0#8 ++ b, w⟩ = .ok (.rnd b.toNat) ∧ decode ⟨0xB0#8 ++ b, w⟩ = .ok (.irnd b.toNat)) ∧
  ∀ (idx : Nat) (s : State),
    (idx < s.KN →
      exec (.rnd idx) s = .next { s with
        S := permLayer (subLayer (s.S ^^^ s.readKey idx)),
        rsp := some ⟨.ok, permLayer (subLayer (s.S ^^^ s.readKey idx))⟩ } ∧
      exec (.irnd idx) s = .next { s with
        S := invSubLayer (permLayer s.S) ^^^ s.readKey idx,
        rsp := some ⟨.ok, invSubLayer (permLayer s.S) ^^^ s.readKey idx⟩ } ∧
      exec (.rnd idx) s = execAll [.mix idx, .sub, .perm] s ∧
      exec (.irnd idx) s = execAll [.perm, .isub, .mix idx] s ∧
      execAll [.rnd idx, .irnd idx] s = .next { s with rsp := some ⟨.ok, s.S⟩ } ∧
      execAll [.irnd idx, .rnd idx] s = .next { s with rsp := some ⟨.ok, s.S⟩ }) ∧
    (s.KN ≤ idx →
      exec (.rnd idx) s = .next { s with rsp := some ⟨.keyIndex, 0x0000⟩ } ∧
      exec (.irnd idx) s = .next { s with rsp := some ⟨.keyIndex, 0x0000⟩ })

/-- Rules R97, R98: `LRND k<idx>` and `ILRND k<idx>` on the pair of keys `idx`, `idx + 1`, with no wrap at 255. -/
def Obligations.LastRoundCommands : Prop :=
  (∀ (b : BitVec 8) (w : Word),
    decode ⟨0xC0#8 ++ b, w⟩ = .ok (.lrnd b.toNat) ∧ decode ⟨0xD0#8 ++ b, w⟩ = .ok (.ilrnd b.toNat)) ∧
  (∀ (idx : Nat) (s : State),
    (idx + 1 < s.KN →
      exec (.lrnd idx) s = .next { s with
        S := subLayer (s.S ^^^ s.readKey idx) ^^^ s.readKey (idx + 1),
        rsp := some ⟨.ok, subLayer (s.S ^^^ s.readKey idx) ^^^ s.readKey (idx + 1)⟩ } ∧
      exec (.ilrnd idx) s = .next { s with
        S := invSubLayer (s.S ^^^ s.readKey (idx + 1)) ^^^ s.readKey idx,
        rsp := some ⟨.ok, invSubLayer (s.S ^^^ s.readKey (idx + 1)) ^^^ s.readKey idx⟩ } ∧
      exec (.lrnd idx) s = execAll [.mix idx, .sub, .mix (idx + 1)] s ∧
      exec (.ilrnd idx) s = execAll [.mix (idx + 1), .isub, .mix idx] s ∧
      execAll [.lrnd idx, .ilrnd idx] s = .next { s with rsp := some ⟨.ok, s.S⟩ } ∧
      execAll [.ilrnd idx, .lrnd idx] s = .next { s with rsp := some ⟨.ok, s.S⟩ }) ∧
    (s.KN ≤ idx + 1 →
      exec (.lrnd idx) s = .next { s with rsp := some ⟨.keyIndex, 0x0000⟩ } ∧
      exec (.ilrnd idx) s = .next { s with rsp := some ⟨.keyIndex, 0x0000⟩ })) ∧
  ∀ s : State, s.wf →
    exec (.lrnd 255) s = .next { s with rsp := some ⟨.keyIndex, 0x0000⟩ } ∧
    exec (.ilrnd 255) s = .next { s with rsp := some ⟨.keyIndex, 0x0000⟩ }

/-! ## The drivers as pure functions -/

/-- Rules R110, R111: the drivers over a key sequence of `R + 1` keys, as a pass over the sequence in order, and in
reverse order; the spec's examples. -/
def Obligations.DriversFollowTheKeySequence : Prop :=
  (∀ (R : Nat) (ks : List Word) (ka kb p : Word), ks.length + 1 = R →
    encrypt R (ks ++ [ka, kb]) p = lastRound (ks.foldl fullRound p) ka kb ∧
    decrypt R (ks ++ [ka, kb]) p = ks.reverse.foldl invFullRound (invLastRound p ka kb)) ∧
  encrypt 5 (List.replicate 6 0x0001) 0xFFFF = 0x6C19 ∧ decrypt 5 (List.replicate 6 0x0001) 0x6C19 = 0xFFFF

/-- Rule R112: the round trip in both directions for every round count and every key sequence, so both drivers are
bijections on blocks; the form of one round; and the values between the rounds of a decryption are those of the
encryption in reverse order. -/
def Obligations.DriversRoundTrip : Prop :=
  (∀ (R : Nat) (keys : List Word) (p : Word), 1 ≤ R → keys.length = R + 1 →
    decrypt R keys (encrypt R keys p) = p ∧ encrypt R keys (decrypt R keys p) = p) ∧
  (∀ (R : Nat) (keys : List Word), 1 ≤ R → keys.length = R + 1 →
    Function.Bijective (encrypt R keys) ∧ Function.Bijective (decrypt R keys)) ∧
  (∀ k0 k1 v : Word, encrypt 1 [k0, k1] v = subLayer (v ^^^ k0) ^^^ k1 ∧
    decrypt 1 [k0, k1] v = invSubLayer (v ^^^ k1) ^^^ k0) ∧
  (∀ (R : Nat) (keys : List Word) (p : Word) (j : Nat), 1 ≤ R → keys.length = R + 1 → j ≤ R →
    valueAfter .dec R keys (encrypt R keys p) j = valueAfter .enc R keys p (R - j))

/-! ## The driver commands and the sequencer -/

/-- Rules R113, R114, R149: the checks of `ENC` and `DEC`, in order; on failure no register changes. -/
def Obligations.DriverChecks : Prop :=
  ∀ (p : Word) (s : State),
    (s.KN = 0 →
      exec (.enc p) s = .next { s with rsp := some ⟨.missingKey, 0x0000⟩ } ∧
      exec (.dec p) s = .next { s with rsp := some ⟨.missingKey, 0x0000⟩ }) ∧
    (0 < s.KN → s.KN < s.cfg.rounds + 1 →
      exec (.enc p) s = .next { s with rsp := some ⟨.insufficientKey, 0x0000⟩ } ∧
      exec (.dec p) s = .next { s with rsp := some ⟨.insufficientKey, 0x0000⟩ })

/-- Rules R113, R121: `ENC` with a full store is accepted, and its `R` round steps leave the encryption of its operand
in `S`, answered `OK`; keys and key count stay, and the old `S` is not read. -/
def Obligations.EncEncryptsItsOperand : Prop :=
  (∀ w : Word, decode ⟨0xE000, w⟩ = .ok (.enc w)) ∧
  ∀ (p : Word) (s : State), s.wf → s.KN = s.cfg.rounds + 1 →
    ∃ t, exec (.enc p) s = .next t ∧ t = { s with S := p, DIR := .enc, RC := 0, BUSY := true, rsp := none } ∧
      roundSteps s.cfg.rounds t = { s with
        S := encrypt s.cfg.rounds s.K p, DIR := .enc, RC := 0, BUSY := false,
        rsp := some ⟨.ok, encrypt s.cfg.rounds s.K p⟩ }

/-- Rules R114, R121: the same of `DEC`. -/
def Obligations.DecDecryptsItsOperand : Prop :=
  (∀ w : Word, decode ⟨0xF000, w⟩ = .ok (.dec w)) ∧
  ∀ (c : Word) (s : State), s.wf → s.KN = s.cfg.rounds + 1 →
    ∃ t, exec (.dec c) s = .next t ∧ t = { s with S := c, DIR := .dec, RC := 0, BUSY := true, rsp := none } ∧
      roundSteps s.cfg.rounds t = { s with
        S := decrypt s.cfg.rounds s.K c, DIR := .dec, RC := 0, BUSY := false,
        rsp := some ⟨.ok, decrypt s.cfg.rounds s.K c⟩ }

/-- Rules R115 to R118: one round step, for each direction, before the last one and at it. -/
def Obligations.RoundStepOfTheSequencer : Prop :=
  ∀ s : State,
    (s.DIR = .enc → s.RC < s.cfg.rounds - 1 →
      s.roundStep = { s with S := fullRound s.S (s.readKey s.RC), RC := s.RC + 1 }) ∧
    (s.DIR = .enc → s.RC = s.cfg.rounds - 1 →
      s.roundStep = { s with
        S := lastRound s.S (s.readKey (s.cfg.rounds - 1)) (s.readKey s.cfg.rounds), BUSY := false, RC := 0,
        rsp := some ⟨.ok, lastRound s.S (s.readKey (s.cfg.rounds - 1)) (s.readKey s.cfg.rounds)⟩ }) ∧
    (s.DIR = .dec → s.RC = 0 → s.cfg.rounds ≠ 1 → 1 ≤ s.cfg.rounds →
      s.roundStep = { s with
        S := invLastRound s.S (s.readKey (s.cfg.rounds - 1)) (s.readKey s.cfg.rounds), RC := 1 }) ∧
    (s.DIR = .dec → s.RC ≠ 0 → s.RC < s.cfg.rounds - 1 →
      s.roundStep = { s with S := invFullRound s.S (s.readKey (s.cfg.rounds - 1 - s.RC)), RC := s.RC + 1 }) ∧
    (s.DIR = .dec → s.RC ≠ 0 → s.RC = s.cfg.rounds - 1 →
      s.roundStep = { s with
        S := invFullRound s.S (s.readKey 0), BUSY := false, RC := 0,
        rsp := some ⟨.ok, invFullRound s.S (s.readKey 0)⟩ }) ∧
    (s.DIR = .dec → s.RC = 0 → s.cfg.rounds = 1 →
      s.roundStep = { s with
        S := invLastRound s.S (s.readKey 0) (s.readKey 1), BUSY := false, RC := 0,
        rsp := some ⟨.ok, invLastRound s.S (s.readKey 0) (s.readKey 1)⟩ })

/-- Rule R119, its induction: after `j` round steps `S` holds the value after `j` rounds, `BUSY` is still 1 and
nothing is answered until the last of the `R` steps; and the value after `R` rounds is that of the driver. -/
def Obligations.ValuesBetweenRoundSteps : Prop :=
  (∀ (dir : Dir) (p : Word) (s : State) (j : Nat), j < s.cfg.rounds →
    roundSteps j (s.accept dir p) =
      { s.accept dir p with S := valueAfter dir s.cfg.rounds s.K p j, RC := j }) ∧
  (∀ (dir : Dir) (R : Nat) (keys : List Word) (p : Word), 1 ≤ R →
    valueAfter dir R keys p R = transform dir R keys p)

/-- Rules R11, R117 to R119, R122, R172: from the acceptance of a driver command to its answer, in steps of the
machine, for every `T_ROUND`: whatever the host presents meanwhile and at whichever edges the sequencer completes
its `R` round steps, if no edge resets, then the run ends in the result, and that is the one response. -/
def Obligations.SequencerComputesTheDriver : Prop :=
  ∀ (dir : Dir) (p : Word) (c : Command) (i : Instr) (s : State) (tick : Bool) (es rest : List Edge) (e : Edge),
    s.wf → s.BUSY = false → s.KN = s.cfg.rounds + 1 → decode c = .ok i → driver? i = some (dir, p) →
    noReset es = true → e.rst = false → tickCount es = s.cfg.rounds - 1 → e.tick = true →
    run (1 + es.length + 1)
        { s with inputs := ⟨false, some c, tick⟩ :: (es ++ e :: rest) } =
      .next { s with
        S := transform dir s.cfg.rounds s.K p, DIR := dir, inputs := rest,
        rsp := some ⟨.ok, transform dir s.cfg.rounds s.K p⟩ } ∧
    responses (1 + es.length + 1) { s with inputs := ⟨false, some c, tick⟩ :: (es ++ e :: rest) } =
      [⟨.ok, transform dir s.cfg.rounds s.K p⟩]

/-- Rule R172: a running operation always ends. From any well-formed busy state, as long as no edge resets, it is
still running while fewer round steps than it needs are completed, and at the edge that completes the last one the
core is ready again and answers `OK`. -/
def Obligations.BusyAlwaysEnds : Prop :=
  ∀ (s : State) (es rest : List Edge), s.wf → s.BUSY = true → noReset es = true →
    (tickCount es < s.cfg.rounds - s.RC →
      ∃ t, run es.length { s with inputs := es ++ rest } = .next t ∧
        t.BUSY = true ∧ t.RC = s.RC + tickCount es ∧ t.rsp = none ∧ t.inputs = rest) ∧
    (∀ e : Edge, e.rst = false → e.tick = true → tickCount es + 1 = s.cfg.rounds - s.RC →
      ∃ t, run (es.length + 1) { s with inputs := es ++ e :: rest } = .next t ∧
        t.BUSY = false ∧ t.RC = 0 ∧ t.rsp = some ⟨.ok, t.S⟩ ∧ t.inputs = rest)

/-- Rules R11, R119, R173: on every program the sequencer machine does what the architectural machine with atomic
commands does. A host that presents a program, each command as soon as the core is ready for it, gets the same
responses in order and the same final state. -/
def Obligations.SequencerRefinesAtomicMachine : Prop :=
  ∀ (cs : List Command) (s : State) (rest : List Edge), s.wf → s.BUSY = false →
    ∃ t rs, runAtomic cs s = .next (t, rs) ∧
      run (schedule cs s).length { s with inputs := schedule cs s ++ rest } =
        .next { t with inputs := rest } ∧
      responses (schedule cs s).length { s with inputs := schedule cs s ++ rest } = rs

/-! ## Errors -/

/-- Rule R141: an error changes no register and answers its code with 0; and a step that answers an error leaves the
core ready for the next command. -/
def Obligations.ErrorsChangeNothing : Prop :=
  (∀ (c : Command) (s t : State) (r : Response),
    acceptCommand c s = .next t → t.rsp = some r → r.status ≠ .ok →
    t = { s with rsp := some ⟨r.status, 0x0000⟩ }) ∧
  ∀ (s t : State) (r : Response), step s = .next t → t.rsp = some r → r.status ≠ .ok →
    t = { s with inputs := s.inputs.tail, rsp := some ⟨r.status, 0x0000⟩ } ∧ t.cmdReady = true

/-- Rules R140, R142, R145, R149: which error a command reports, exactly: an illegal word before anything else, then the
command's own check, and no command reports code 1 or 4. -/
def Obligations.ErrorCauses : Prop :=
  ∀ (c : Command) (s t : State), acceptCommand c s = .next t →
    ((∃ v, t.rsp = some ⟨.illegalCmd, v⟩) ↔ ∃ w, decode c = .error w) ∧
    ((∃ v, t.rsp = some ⟨.keyIndex, v⟩) ↔
      ∃ idx, (decode c = .ok (.mix idx) ∧ s.KN ≤ idx) ∨ (decode c = .ok (.rnd idx) ∧ s.KN ≤ idx) ∨
        (decode c = .ok (.irnd idx) ∧ s.KN ≤ idx) ∨ (decode c = .ok (.lrnd idx) ∧ s.KN ≤ idx + 1) ∨
        (decode c = .ok (.ilrnd idx) ∧ s.KN ≤ idx + 1)) ∧
    ((∃ v, t.rsp = some ⟨.keyFull, v⟩) ↔ ∃ v, decode c = .ok (.kpush v) ∧ s.KN = s.cfg.rounds + 1) ∧
    ((∃ v, t.rsp = some ⟨.missingKey, v⟩) ↔
      ∃ p, (decode c = .ok (.enc p) ∨ decode c = .ok (.dec p)) ∧ s.KN = 0) ∧
    ((∃ v, t.rsp = some ⟨.insufficientKey, v⟩) ↔
      ∃ p, (decode c = .ok (.enc p) ∨ decode c = .ok (.dec p)) ∧ 0 < s.KN ∧ s.KN < s.cfg.rounds + 1) ∧
    (∀ v, t.rsp ≠ some ⟨.invalidBlock, v⟩) ∧ (∀ v, t.rsp ≠ some ⟨.unsupportedKey, v⟩)

/-- Rule R11: exactly one response for each accepted command, and none otherwise. A step of a well-formed machine
presents a response exactly when it accepts a command that is no driver command passing its checks, or takes the last
round step of a driver command. -/
def Obligations.OneResponseForEachCommand : Prop :=
  ∀ (s t : State) (e : Edge) (es : List Edge), s.wf → s.inputs = e :: es → step s = .next t →
    (t.rspValid = true ↔
      e.rst = false ∧
      ((s.BUSY = false ∧ ∃ c, e.command = some c ∧ s.startsDriver c = false) ∨
        (s.BUSY = true ∧ e.tick = true ∧ s.RC = s.cfg.rounds - 1)))

/-- Rules R60, R130, R131, R80 to R84, R95 to R98: the data result of a command that writes or reads `S` and succeeds
is the value of `S` after it. -/
def Obligations.ResponseCarriesTheBlock : Prop :=
  ∀ (i : Instr) (s t : State) (r : Response), exec i s = .next t → t.rsp = some r → r.status = .ok →
    i ≠ .kclr → (∀ v, i ≠ .kpush v) → driver? i = none → r.rdata = t.S

/-! ## Frames -/

/-- Rules R12, R13, R16 to R18: the commands that compute on the block (`LDS`, `RDS`, `MIX`, `MIXI`, `SUB`, `ISUB`,
`PERM`, `RND`, `IRND`, `LRND`, `ILRND`) change no register but `S`; every key entry reads as before; `RDS` does not
change `S`. -/
def Obligations.FrameOfBlockCommands : Prop :=
  ∀ (i : Instr) (s t : State), exec i s = .next t →
    ((∃ v, i = .lds v) ∨ i = .rds ∨ (∃ n, i = .mix n) ∨ (∃ v, i = .mixi v) ∨ i = .sub ∨ i = .isub ∨ i = .perm ∨
      (∃ n, i = .rnd n) ∨ (∃ n, i = .irnd n) ∨ (∃ n, i = .lrnd n) ∨ (∃ n, i = .ilrnd n)) →
    t.cfg = s.cfg ∧ t.K = s.K ∧ (∀ j, t.readKey j = s.readKey j) ∧ t.KN = s.KN ∧ t.BUSY = s.BUSY ∧
      t.DIR = s.DIR ∧ t.RC = s.RC ∧ t.inputs = s.inputs ∧ (i = .rds → t.S = s.S)

/-- Rules R14, R32, R132, R133: `KCLR` and `KPUSH` change no register but the key count and, for `KPUSH`, the entry at
the old key count; every other entry reads as before. -/
def Obligations.FrameOfStoreCommands : Prop :=
  ∀ (i : Instr) (s t : State), exec i s = .next t → (i = .kclr ∨ ∃ v, i = .kpush v) →
    t.cfg = s.cfg ∧ t.S = s.S ∧ t.BUSY = s.BUSY ∧ t.DIR = s.DIR ∧ t.RC = s.RC ∧ t.inputs = s.inputs ∧
      (∀ j, j ≠ s.KN → t.readKey j = s.readKey j) ∧ (i = .kclr → ∀ j, t.readKey j = s.readKey j)

/-- Rules R113, R114, R117, R120, R121: `ENC`, `DEC` and the round steps change `S`, `BUSY`, `DIR`, `RC` and nothing
else: the key store and the key count stay; a round step keeps `DIR` too. -/
def Obligations.FrameOfDrivers : Prop :=
  (∀ (p : Word) (s t : State), exec (.enc p) s = .next t ∨ exec (.dec p) s = .next t →
    t.cfg = s.cfg ∧ t.K = s.K ∧ (∀ j, t.readKey j = s.readKey j) ∧ t.KN = s.KN ∧ t.inputs = s.inputs) ∧
  (∀ s : State, s.roundStep.cfg = s.cfg ∧ s.roundStep.K = s.K ∧ (∀ j, s.roundStep.readKey j = s.readKey j) ∧
    s.roundStep.KN = s.KN ∧ s.roundStep.DIR = s.DIR ∧ s.roundStep.inputs = s.inputs)

/-! ## Rules about the whole machine -/

/-- Rules R13, R14, R18, R60, R118: every step keeps the core well formed. -/
def Obligations.EveryStepKeepsTheCoreWellFormed : Prop :=
  ∀ s t : State, s.wf → step s = .next t → t.wf

/-- The reset state of every core with a legal round count is well formed. -/
def Obligations.ResetIsWellFormed : Prop :=
  ∀ c : Config, c.wf → (State.resetOf c).wf

/-- The machine never stops: every operation "either completes or raises an error" (R11), and no error stops it
(R151). -/
def Obligations.EveryRunGoesOn : Prop :=
  ∀ (n : Nat) (s : State), s.runsSafely n

/-- Rule R2: no command and no reset changes the round count, and no step looks further ahead in the inputs than one
edge. -/
def Obligations.RoundCountNeverChanges : Prop :=
  ∀ s t : State, step s = .next t → t.cfg = s.cfg ∧ t.inputs = s.inputs.tail

/-- Rules R13, R14, R16, R32: which steps can change a key entry or the key count. A valid key entry changes only at
a reset; the key count changes only at a reset or at an accepted `KCLR` or `KPUSH`, and none of these is accepted
while an operation runs. -/
def Obligations.KeysChangeOnlyByTheirCommands : Prop :=
  ∀ (s t : State) (e : Edge) (es : List Edge), s.inputs = e :: es → step s = .next t → e.rst = false →
    (∀ j, j < s.KN → t.readKey j = s.readKey j) ∧
    (t.K ≠ s.K ∨ t.KN ≠ s.KN →
      s.BUSY = false ∧ ∃ c, e.command = some c ∧
        (decode c = .ok .kclr ∨ ∃ v, decode c = .ok (.kpush v)))

/-- Rule R15: the content of an invalid key entry is unobservable. Two well-formed states that differ only in invalid
entries take steps to two states that differ only in invalid entries, with the same response on the port. -/
def Obligations.InvalidKeyEntriesAreUnobservable : Prop :=
  ∀ (s : State) (keys : List Word), s.wf → keys.length = s.K.length →
    (∀ j, j < s.KN → keys.getD j 0 = s.readKey j) →
    ∃ t keys', step s = .next t ∧ step { s with K := keys } = .next { t with K := keys' } ∧
      keys'.length = t.K.length ∧ ∀ j, j < t.KN → keys'.getD j 0 = t.readKey j

/-- Rules R13, R153: the key store is not secret: `LDS #0` and then `MIX k<i>` answers `K[i]`. -/
def Obligations.AStoredKeyCanBeReadBack : Prop :=
  ∀ (i : Nat) (s : State), i < s.KN →
    execAll [.lds 0x0000, .mix i] s =
      .next { s with S := s.readKey i, rsp := some ⟨.ok, s.readKey i⟩ }

/-! ## Programs -/

/-- Rules R59, R133, R163: `KLOAD` with `R + 1` keys fills the store with exactly those keys in order, whatever it held;
one key more answers `KeyFull`. -/
def Obligations.KloadFillsTheStore : Prop :=
  ∀ (keys : List Word) (s : State), s.wf → keys.length = s.cfg.rounds + 1 →
    ∃ t, runPseudo (kload keys) s = .next t ∧
      t = { s with K := keys, KN := s.cfg.rounds + 1, rsp := some ⟨.ok, BitVec.ofNat 16 (s.cfg.rounds + 1)⟩ } ∧
      ∀ v, exec (.kpush v) t = .next { t with rsp := some ⟨.keyFull, 0x0000⟩ }

/-- Rule R59: `ENCK` and `DECK` with `R + 1` keys are the source's `encrypt` and `decrypt` with explicit keys, and one
undoes the other. -/
def Obligations.KeyedPseudoInstructions : Prop :=
  ∀ (keys : List Word) (p : Word) (s : State), s.wf → keys.length = s.cfg.rounds + 1 →
    (∃ t, runPseudo (enck p keys) s = .next t ∧ t.S = encrypt s.cfg.rounds keys p ∧
      t.rsp = some ⟨.ok, encrypt s.cfg.rounds keys p⟩ ∧ t.K = keys ∧ t.KN = s.cfg.rounds + 1) ∧
    (∃ t, runPseudo (deck p keys) s = .next t ∧ t.S = decrypt s.cfg.rounds keys p ∧
      t.rsp = some ⟨.ok, decrypt s.cfg.rounds keys p⟩ ∧ t.K = keys ∧ t.KN = s.cfg.rounds + 1) ∧
    (∃ t, andThen (runPseudo (enck p keys) s) (fun u => runPseudo (deck u.S keys) u) = .next t ∧
      t.rsp = some ⟨.ok, p⟩)

/-- Rules R59, R143, R144, R147: a pseudo-instruction stops at its first error, and its outcome is that status. In general:
when the commands before one have answered `OK` and that one does not, the expansion ends with it and no command
after it runs. Then the three pseudo-instructions by name. `ENCK` and `DECK` with fewer than `R + 1` keys end with
`InsufficientKey`, with none with `MissingKey`; with more than `R + 1`, `ENCK`, `DECK` and `KLOAD` end with `KeyFull` at the
first key too many. In no case is the block touched. -/
def Obligations.PseudoInstructionStopsAtAnError : Prop :=
  (∀ (before after : List Instr) (i : Instr) (s t u : State),
    runPseudo before s = .next t → (before = [] ∨ t.answeredOk = true) →
    execAtomic i t = .next u → u.answeredOk = false →
    runPseudo (before ++ i :: after) s = .next u) ∧
  (∀ (keys : List Word) (p : Word) (s : State), s.wf →
    ∀ expansion, expansion = enck p keys ∨ expansion = deck p keys →
      (keys = [] → ∃ t, runPseudo expansion s = .next t ∧ t.rsp = some ⟨.missingKey, 0x0000⟩ ∧ t.S = s.S ∧
        t.KN = 0) ∧
      (0 < keys.length → keys.length < s.cfg.rounds + 1 →
        ∃ t, runPseudo expansion s = .next t ∧ t.rsp = some ⟨.insufficientKey, 0x0000⟩ ∧ t.S = s.S ∧
          t.KN = keys.length)) ∧
  ∀ (keys : List Word) (p : Word) (s : State), s.wf → s.cfg.rounds + 1 < keys.length →
    ∀ expansion, expansion = enck p keys ∨ expansion = deck p keys ∨ expansion = kload keys →
      ∃ t, runPseudo expansion s = .next t ∧ t.rsp = some ⟨.keyFull, 0x0000⟩ ∧ t.S = s.S ∧
        t.K = keys.take (s.cfg.rounds + 1) ∧ t.KN = s.cfg.rounds + 1
end

