-- ==== Sys2Proof/Laws/State.lean ====
section
/-! SUPPORT. What each named update of the state leaves in each field: one lemma a field and update, true by
`rfl`, so that no proof unfolds a record update. -/

namespace Sys2Proof.Machine

@[simp] theorem State.respond_cfg (st : Status) (v : Word) (s : State) : (s.respond st v).cfg = s.cfg := rfl
@[simp] theorem State.respond_S (st : Status) (v : Word) (s : State) : (s.respond st v).S = s.S := rfl
@[simp] theorem State.respond_K (st : Status) (v : Word) (s : State) : (s.respond st v).K = s.K := rfl
@[simp] theorem State.respond_KN (st : Status) (v : Word) (s : State) : (s.respond st v).KN = s.KN := rfl
@[simp] theorem State.respond_BUSY (st : Status) (v : Word) (s : State) : (s.respond st v).BUSY = s.BUSY := rfl
@[simp] theorem State.respond_DIR (st : Status) (v : Word) (s : State) : (s.respond st v).DIR = s.DIR := rfl
@[simp] theorem State.respond_RC (st : Status) (v : Word) (s : State) : (s.respond st v).RC = s.RC := rfl
@[simp] theorem State.respond_rsp (st : Status) (v : Word) (s : State) : (s.respond st v).rsp = some ⟨st, v⟩ := rfl
@[simp] theorem State.respond_inputs (st : Status) (v : Word) (s : State) : (s.respond st v).inputs = s.inputs := rfl

@[simp] theorem State.raise_cfg (st : Status) (s : State) : (s.raise st).cfg = s.cfg := rfl
@[simp] theorem State.raise_S (st : Status) (s : State) : (s.raise st).S = s.S := rfl
@[simp] theorem State.raise_K (st : Status) (s : State) : (s.raise st).K = s.K := rfl
@[simp] theorem State.raise_KN (st : Status) (s : State) : (s.raise st).KN = s.KN := rfl
@[simp] theorem State.raise_BUSY (st : Status) (s : State) : (s.raise st).BUSY = s.BUSY := rfl
@[simp] theorem State.raise_DIR (st : Status) (s : State) : (s.raise st).DIR = s.DIR := rfl
@[simp] theorem State.raise_RC (st : Status) (s : State) : (s.raise st).RC = s.RC := rfl
@[simp] theorem State.raise_rsp (st : Status) (s : State) : (s.raise st).rsp = some ⟨st, 0⟩ := rfl
@[simp] theorem State.raise_inputs (st : Status) (s : State) : (s.raise st).inputs = s.inputs := rfl

@[simp] theorem State.writeBlock_cfg (v : Word) (s : State) : (s.writeBlock v).cfg = s.cfg := rfl
@[simp] theorem State.writeBlock_S (v : Word) (s : State) : (s.writeBlock v).S = v := rfl
@[simp] theorem State.writeBlock_K (v : Word) (s : State) : (s.writeBlock v).K = s.K := rfl
@[simp] theorem State.writeBlock_KN (v : Word) (s : State) : (s.writeBlock v).KN = s.KN := rfl
@[simp] theorem State.writeBlock_BUSY (v : Word) (s : State) : (s.writeBlock v).BUSY = s.BUSY := rfl
@[simp] theorem State.writeBlock_DIR (v : Word) (s : State) : (s.writeBlock v).DIR = s.DIR := rfl
@[simp] theorem State.writeBlock_RC (v : Word) (s : State) : (s.writeBlock v).RC = s.RC := rfl
@[simp] theorem State.writeBlock_rsp (v : Word) (s : State) : (s.writeBlock v).rsp = s.rsp := rfl
@[simp] theorem State.writeBlock_inputs (v : Word) (s : State) : (s.writeBlock v).inputs = s.inputs := rfl

@[simp] theorem State.answerBlock_cfg (v : Word) (s : State) : (s.answerBlock v).cfg = s.cfg := rfl
@[simp] theorem State.answerBlock_S (v : Word) (s : State) : (s.answerBlock v).S = v := rfl
@[simp] theorem State.answerBlock_K (v : Word) (s : State) : (s.answerBlock v).K = s.K := rfl
@[simp] theorem State.answerBlock_KN (v : Word) (s : State) : (s.answerBlock v).KN = s.KN := rfl
@[simp] theorem State.answerBlock_BUSY (v : Word) (s : State) : (s.answerBlock v).BUSY = s.BUSY := rfl
@[simp] theorem State.answerBlock_DIR (v : Word) (s : State) : (s.answerBlock v).DIR = s.DIR := rfl
@[simp] theorem State.answerBlock_RC (v : Word) (s : State) : (s.answerBlock v).RC = s.RC := rfl
@[simp] theorem State.answerBlock_rsp (v : Word) (s : State) : (s.answerBlock v).rsp = some ⟨.ok, v⟩ := rfl
@[simp] theorem State.answerBlock_inputs (v : Word) (s : State) : (s.answerBlock v).inputs = s.inputs := rfl

@[simp] theorem State.appendKey_cfg (v : Word) (s : State) : (s.appendKey v).cfg = s.cfg := rfl
@[simp] theorem State.appendKey_S (v : Word) (s : State) : (s.appendKey v).S = s.S := rfl
@[simp] theorem State.appendKey_K (v : Word) (s : State) : (s.appendKey v).K = s.K.set s.KN v := rfl
@[simp] theorem State.appendKey_KN (v : Word) (s : State) : (s.appendKey v).KN = s.KN + 1 := rfl
@[simp] theorem State.appendKey_BUSY (v : Word) (s : State) : (s.appendKey v).BUSY = s.BUSY := rfl
@[simp] theorem State.appendKey_DIR (v : Word) (s : State) : (s.appendKey v).DIR = s.DIR := rfl
@[simp] theorem State.appendKey_RC (v : Word) (s : State) : (s.appendKey v).RC = s.RC := rfl
@[simp] theorem State.appendKey_rsp (v : Word) (s : State) : (s.appendKey v).rsp = s.rsp := rfl
@[simp] theorem State.appendKey_inputs (v : Word) (s : State) : (s.appendKey v).inputs = s.inputs := rfl

@[simp] theorem State.dropKeys_cfg (s : State) : (s.dropKeys).cfg = s.cfg := rfl
@[simp] theorem State.dropKeys_S (s : State) : (s.dropKeys).S = s.S := rfl
@[simp] theorem State.dropKeys_K (s : State) : (s.dropKeys).K = s.K := rfl
@[simp] theorem State.dropKeys_KN (s : State) : (s.dropKeys).KN = 0 := rfl
@[simp] theorem State.dropKeys_BUSY (s : State) : (s.dropKeys).BUSY = s.BUSY := rfl
@[simp] theorem State.dropKeys_DIR (s : State) : (s.dropKeys).DIR = s.DIR := rfl
@[simp] theorem State.dropKeys_RC (s : State) : (s.dropKeys).RC = s.RC := rfl
@[simp] theorem State.dropKeys_rsp (s : State) : (s.dropKeys).rsp = s.rsp := rfl
@[simp] theorem State.dropKeys_inputs (s : State) : (s.dropKeys).inputs = s.inputs := rfl

@[simp] theorem State.accept_cfg (dir : Dir) (p : Word) (s : State) : (s.accept dir p).cfg = s.cfg := rfl
@[simp] theorem State.accept_S (dir : Dir) (p : Word) (s : State) : (s.accept dir p).S = p := rfl
@[simp] theorem State.accept_K (dir : Dir) (p : Word) (s : State) : (s.accept dir p).K = s.K := rfl
@[simp] theorem State.accept_KN (dir : Dir) (p : Word) (s : State) : (s.accept dir p).KN = s.KN := rfl
@[simp] theorem State.accept_BUSY (dir : Dir) (p : Word) (s : State) : (s.accept dir p).BUSY = true := rfl
@[simp] theorem State.accept_DIR (dir : Dir) (p : Word) (s : State) : (s.accept dir p).DIR = dir := rfl
@[simp] theorem State.accept_RC (dir : Dir) (p : Word) (s : State) : (s.accept dir p).RC = 0 := rfl
@[simp] theorem State.accept_rsp (dir : Dir) (p : Word) (s : State) : (s.accept dir p).rsp = none := rfl
@[simp] theorem State.accept_inputs (dir : Dir) (p : Word) (s : State) : (s.accept dir p).inputs = s.inputs := rfl

@[simp] theorem State.passEdge_cfg (s : State) : (s.passEdge).cfg = s.cfg := rfl
@[simp] theorem State.passEdge_S (s : State) : (s.passEdge).S = s.S := rfl
@[simp] theorem State.passEdge_K (s : State) : (s.passEdge).K = s.K := rfl
@[simp] theorem State.passEdge_KN (s : State) : (s.passEdge).KN = s.KN := rfl
@[simp] theorem State.passEdge_BUSY (s : State) : (s.passEdge).BUSY = s.BUSY := rfl
@[simp] theorem State.passEdge_DIR (s : State) : (s.passEdge).DIR = s.DIR := rfl
@[simp] theorem State.passEdge_RC (s : State) : (s.passEdge).RC = s.RC := rfl
@[simp] theorem State.passEdge_rsp (s : State) : (s.passEdge).rsp = none := rfl
@[simp] theorem State.passEdge_inputs (s : State) : (s.passEdge).inputs = s.inputs.tail := rfl

@[simp] theorem State.resetEdge_cfg (s : State) : (s.resetEdge).cfg = s.cfg := rfl
@[simp] theorem State.resetEdge_S (s : State) : (s.resetEdge).S = 0 := rfl
@[simp] theorem State.resetEdge_K (s : State) : (s.resetEdge).K = List.replicate s.cfg.keyCount 0 := rfl
@[simp] theorem State.resetEdge_KN (s : State) : (s.resetEdge).KN = 0 := rfl
@[simp] theorem State.resetEdge_BUSY (s : State) : (s.resetEdge).BUSY = false := rfl
@[simp] theorem State.resetEdge_DIR (s : State) : (s.resetEdge).DIR = .enc := rfl
@[simp] theorem State.resetEdge_RC (s : State) : (s.resetEdge).RC = 0 := rfl
@[simp] theorem State.resetEdge_rsp (s : State) : (s.resetEdge).rsp = none := rfl
@[simp] theorem State.resetEdge_inputs (s : State) : (s.resetEdge).inputs = s.inputs := rfl

@[simp] theorem State.resetOf_cfg (c : Config) : (State.resetOf c).cfg = c := rfl
@[simp] theorem State.resetOf_S (c : Config) : (State.resetOf c).S = 0 := rfl
@[simp] theorem State.resetOf_K (c : Config) : (State.resetOf c).K = List.replicate c.keyCount 0 := rfl
@[simp] theorem State.resetOf_KN (c : Config) : (State.resetOf c).KN = 0 := rfl
@[simp] theorem State.resetOf_BUSY (c : Config) : (State.resetOf c).BUSY = false := rfl
@[simp] theorem State.resetOf_DIR (c : Config) : (State.resetOf c).DIR = .enc := rfl
@[simp] theorem State.resetOf_RC (c : Config) : (State.resetOf c).RC = 0 := rfl
@[simp] theorem State.resetOf_rsp (c : Config) : (State.resetOf c).rsp = none := rfl
@[simp] theorem State.resetOf_inputs (c : Config) : (State.resetOf c).inputs = [] := rfl

/-- The count of keys an operation needs, as a sum. -/
@[simp] theorem keyCount_eq (c : Config) : c.keyCount = c.rounds + 1 := rfl

@[simp] theorem State.cmdReady_eq (s : State) : s.cmdReady = !s.BUSY := rfl

/-- A key read depends on the store alone. -/
theorem State.readKey_eq_keyAt (s : State) (i : Nat) : s.readKey i = keyAt s.K i := rfl

@[simp] theorem State.keyValid_iff (s : State) (i : Nat) : s.keyValid i = true ↔ i < s.KN := by
  simp [State.keyValid]

@[simp] theorem State.keyPairValid_iff (s : State) (i : Nat) : s.keyPairValid i = true ↔ i + 1 < s.KN := by
  simp [State.keyPairValid]

end Sys2Proof.Machine
end

