-- ==== Sys2Proof/Laws/Cipher.lean ====
section
/-! SUPPORT. Small laws of the layer functions: nibbles and bits. -/

namespace Sys2Proof.Machine

/-- A word is its four nibbles. -/
theorem eq_of_nib_eq {v w : Word} (h : ∀ j < 4, nib v j = nib w j) : v = w := by
  apply BitVec.eq_of_getLsbD_eq
  intro i hi
  have := congrArg (fun n : Nibble => n.getLsbD (i % 4)) (h (i / 4) (by omega))
  simpa [nib, Nat.mod_lt, Nat.div_add_mod] using this

/-- The bits of a word put together from four nibbles. -/
theorem getLsbD_ofNibbles (a b c d : Nibble) (k : Nat) :
    BitVec.getLsbD (w := 16) (a ++ b ++ c ++ d) k =
      if k < 4 then d.getLsbD k else if k < 8 then c.getLsbD (k - 4) else if k < 12 then b.getLsbD (k - 8)
      else a.getLsbD (k - 12) := by
  show BitVec.getLsbD (w := 4 + 4 + 4 + 4) (a ++ b ++ c ++ d) k = _
  simp only [BitVec.getLsbD_append, Nat.sub_sub]
  by_cases h4 : k < 4
  · simp [h4]
  · by_cases h8 : k < 8
    · simp [h4, h8, show k - 4 < 4 by omega]
    · by_cases h12 : k < 12
      · simp [h4, h8, h12, show ¬ k - 4 < 4 by omega, show k - 8 < 4 by omega]
      · simp [h4, h8, h12, show ¬ k - 4 < 4 by omega, show ¬ k - 8 < 4 by omega]

/-- The nibbles of a word put together from four nibbles. -/
theorem nib_ofNibbles (a b c d : Nibble) :
    nib (a ++ b ++ c ++ d) 0 = d ∧ nib (a ++ b ++ c ++ d) 1 = c ∧ nib (a ++ b ++ c ++ d) 2 = b ∧
      nib (a ++ b ++ c ++ d) 3 = a := by
  refine ⟨?_, ?_, ?_, ?_⟩ <;> apply BitVec.eq_of_getLsbD_eq <;> intro i hi <;>
    rw [nib, BitVec.getLsbD_extractLsb', getLsbD_ofNibbles]
  · simp [hi]
  · rw [if_neg (by omega), if_pos (by omega)]; simp [hi]
  · rw [if_neg (by omega), if_neg (by omega), if_pos (by omega)]; simp [hi]
  · rw [if_neg (by omega), if_neg (by omega), if_neg (by omega)]; simp [hi]

/-- A nibble of the forward layer is the S-box of that nibble. -/
theorem nib_subLayer (v : Word) {j : Nat} (hj : j < 4) : nib (subLayer v) j = sbox (nib v j) := by
  obtain ⟨h0, h1, h2, h3⟩ := nib_ofNibbles (sbox (nib v 3)) (sbox (nib v 2)) (sbox (nib v 1)) (sbox (nib v 0))
  have : j = 0 ∨ j = 1 ∨ j = 2 ∨ j = 3 := by omega
  rcases this with rfl | rfl | rfl | rfl
  exacts [h0, h1, h2, h3]

/-- A nibble of the inverse layer is the inverse S-box of that nibble. -/
theorem nib_invSubLayer (v : Word) {j : Nat} (hj : j < 4) : nib (invSubLayer v) j = isbox (nib v j) := by
  obtain ⟨h0, h1, h2, h3⟩ := nib_ofNibbles (isbox (nib v 3)) (isbox (nib v 2)) (isbox (nib v 1)) (isbox (nib v 0))
  have : j = 0 ∨ j = 1 ∨ j = 2 ∨ j = 3 := by omega
  rcases this with rfl | rfl | rfl | rfl
  exacts [h0, h1, h2, h3]

/-- The one bit `movedBit` holds. -/
theorem getLsbD_movedBit (v : Word) {i k : Nat} (hi : i < 16) (hk : k < 16) :
    (movedBit v i).getLsbD k = (decide (k = pbox i) && v.getLsbD i) := by
  have hp : pbox i < 16 := by unfold pbox; omega
  by_cases h : k = pbox i
  · subst h; simp [movedBit, hk]
  · by_cases h2 : k < pbox i
    · simp [movedBit, h, h2]
    · have : k - pbox i ≠ 0 := by omega
      simp [movedBit, h, BitVec.getLsbD_one, this]

end Sys2Proof.Machine
end

