-- ==== Sys2Proof/Laws/Decode.lean ====
section
/-! SUPPORT. The fields of a command word, and of an assembled one (30_encoding.md rule R51). -/

namespace Sys2Proof

/-- The bits of a word put together from its three fields. -/
theorem getLsbD_fields (op rsv : BitVec 4) (idx : BitVec 8) (k : Nat) :
    BitVec.getLsbD (w := 16) (op ++ (rsv ++ idx)) k =
      if k < 8 then idx.getLsbD k else if k < 12 then rsv.getLsbD (k - 8) else op.getLsbD (k - 12) := by
  show BitVec.getLsbD (w := 4 + (4 + 8)) (op ++ (rsv ++ idx)) k = _
  simp only [BitVec.getLsbD_append]
  by_cases h : k < 8
  · simp [h, show k < 12 by omega]
  · by_cases h' : k < 12 <;> simp [h, h']


@[simp] theorem opField_fields (op rsv : BitVec 4) (idx : BitVec 8) : opField (op ++ (rsv ++ idx)) = op := by
  apply BitVec.eq_of_getLsbD_eq
  intro i hi
  rw [opField, BitVec.getLsbD_extractLsb', getLsbD_fields, if_neg (by omega), if_neg (by omega)]
  simp [hi]

@[simp] theorem rsvField_fields (op rsv : BitVec 4) (idx : BitVec 8) : rsvField (op ++ (rsv ++ idx)) = rsv := by
  apply BitVec.eq_of_getLsbD_eq
  intro i hi
  rw [rsvField, BitVec.getLsbD_extractLsb', getLsbD_fields, if_neg (by omega), if_pos (by omega)]
  simp [hi]

@[simp] theorem idxField_fields (op rsv : BitVec 4) (idx : BitVec 8) : idxField (op ++ (rsv ++ idx)) = idx := by
  apply BitVec.eq_of_getLsbD_eq
  intro i hi
  rw [idxField, BitVec.getLsbD_extractLsb', getLsbD_fields, if_pos (by omega)]
  simp [hi]
/-- A word is its three fields, the top one first. -/
theorem word_eq_fields (w : Word) : w = opField w ++ (rsvField w ++ idxField w) := by
  apply BitVec.eq_of_getLsbD_eq
  intro i hi
  rw [getLsbD_fields]
  by_cases h : i < 8
  · simp [h, idxField]
  · by_cases h' : i < 12
    · simp [h, h', rsvField, show i - 8 < 4 by omega, show 8 + (i - 8) = i by omega]
    · simp [h, h', opField, show i - 12 < 4 by omega, show 12 + (i - 12) = i by omega]

@[simp] theorem opField_commandWord (op : BitVec 4) (idx : Nat) : opField (commandWord op idx) = op :=
  opField_fields op 0#4 (BitVec.ofNat 8 idx)

@[simp] theorem rsvField_commandWord (op : BitVec 4) (idx : Nat) : rsvField (commandWord op idx) = 0#4 :=
  rsvField_fields op 0#4 (BitVec.ofNat 8 idx)

@[simp] theorem idxField_commandWord (op : BitVec 4) (idx : Nat) :
    idxField (commandWord op idx) = BitVec.ofNat 8 idx :=
  idxField_fields op 0#4 (BitVec.ofNat 8 idx)

/-- The bits of a word put together from two bytes. -/
theorem getLsbD_bytes (hi lo : BitVec 8) (k : Nat) :
    BitVec.getLsbD (w := 16) (hi ++ lo) k = if k < 8 then lo.getLsbD k else hi.getLsbD (k - 8) := by
  show BitVec.getLsbD (w := 8 + 8) (hi ++ lo) k = _
  rw [BitVec.getLsbD_append]

/-- The opcode of a word put together from two bytes. -/
theorem opField_bytes (hi lo : BitVec 8) : opField (hi ++ lo) = hi.extractLsb' 4 4 := by
  apply BitVec.eq_of_getLsbD_eq
  intro i h
  rw [opField, BitVec.getLsbD_extractLsb', getLsbD_bytes, if_neg (by omega), BitVec.getLsbD_extractLsb']
  congr 2
  omega

/-- The reserved nibble of a word put together from two bytes. -/
theorem rsvField_bytes (hi lo : BitVec 8) : rsvField (hi ++ lo) = hi.extractLsb' 0 4 := by
  apply BitVec.eq_of_getLsbD_eq
  intro i h
  rw [rsvField, BitVec.getLsbD_extractLsb', getLsbD_bytes, if_neg (by omega), BitVec.getLsbD_extractLsb']
  congr 2
  omega

/-- The index field of a word put together from two bytes. -/
theorem idxField_bytes (hi lo : BitVec 8) : idxField (hi ++ lo) = lo := by
  apply BitVec.eq_of_getLsbD_eq
  intro i h
  rw [idxField, BitVec.getLsbD_extractLsb', getLsbD_bytes, if_pos (by omega)]
  simp [h]

/-- A word that names an indexed command decodes to it, whatever its index and `wdata`. -/
theorem decode_indexed {c : Command} {i : Instr} (h0 : opField c.cmd ≠ 0#4) (hr : rsvField c.cmd = 0#4)
    (hi : indexedInstr (opField c.cmd) (idxField c.cmd).toNat = some i) : decode c = .ok i := by
  simp only [decode]
  rw [if_neg h0, if_neg (by simp [hr]), hi]

/-- A word that names a command that is not indexed, its index field 0, decodes to it. -/
theorem decode_plain {c : Command} {i : Instr} (h0 : opField c.cmd ≠ 0#4) (hr : rsvField c.cmd = 0#4)
    (hn : indexedInstr (opField c.cmd) (idxField c.cmd).toNat = none) (hx : idxField c.cmd = 0#8)
    (hp : plainInstr (opField c.cmd) c.wdata = some i) : decode c = .ok i := by
  simp only [decode]
  rw [if_neg h0, if_neg (by simp [hr]), hn, hp]
  simp [hx]

end Sys2Proof
end

