-- ==== Sys2Proof/Laws/Ops.lean ====
section
/-! SUPPORT. What each shared operation can do, said once: proofs cite these lemmas and do not unfold the
operation. -/

namespace Sys2Proof.Machine

theorem State.withKey_of_valid {s : State} {idx : Nat} (f : Word → Word) (h : idx < s.KN) :
    s.withKey idx f = s.answerBlock (f (s.readKey idx)) := by
  simp [State.withKey, h]

theorem State.withKey_of_invalid {s : State} {idx : Nat} (f : Word → Word) (h : s.KN ≤ idx) :
    s.withKey idx f = s.raise .keyIndex := by
  simp [State.withKey, Nat.not_lt.mpr h]

theorem State.withKeyPair_of_valid {s : State} {idx : Nat} (f : Word → Word → Word) (h : idx + 1 < s.KN) :
    s.withKeyPair idx f = s.answerBlock (f (s.readKey idx) (s.readKey (idx + 1))) := by
  simp [State.withKeyPair, h]

theorem State.withKeyPair_of_invalid {s : State} {idx : Nat} (f : Word → Word → Word) (h : s.KN ≤ idx + 1) :
    s.withKeyPair idx f = s.raise .keyIndex := by
  simp [State.withKeyPair, Nat.not_lt.mpr h]

theorem State.whenKeysComplete_of_empty {s : State} (f : State → State) (h : s.KN = 0) :
    s.whenKeysComplete f = s.raise .missingKey := by
  simp [State.whenKeysComplete, h]

theorem State.whenKeysComplete_of_few {s : State} (f : State → State) (h0 : 0 < s.KN)
    (h : s.KN < s.cfg.keyCount) : s.whenKeysComplete f = s.raise .insufficientKey := by
  have : s.KN ≠ 0 := by omega
  unfold State.whenKeysComplete
  rw [if_neg this, if_pos h]

theorem State.whenKeysComplete_of_full {s : State} (f : State → State) (h : s.cfg.keyCount ≤ s.KN) :
    s.whenKeysComplete f = f s := by
  have h1 : s.KN ≠ 0 := by simp only [keyCount_eq] at h; omega
  unfold State.whenKeysComplete
  rw [if_neg h1, if_neg (by omega)]

/-- The three outcomes of the checks of `ENC` and `DEC`. -/
theorem State.whenKeysComplete_cases (s : State) (f : State → State) :
    (s.KN = 0 ∧ s.whenKeysComplete f = s.raise .missingKey) ∨
    (0 < s.KN ∧ s.KN < s.cfg.keyCount ∧ s.whenKeysComplete f = s.raise .insufficientKey) ∨
    (s.cfg.keyCount ≤ s.KN ∧ s.whenKeysComplete f = f s) := by
  rcases Nat.eq_zero_or_pos s.KN with h0 | h0
  · exact .inl ⟨h0, s.whenKeysComplete_of_empty f h0⟩
  · rcases Nat.lt_or_ge s.KN s.cfg.keyCount with h | h
    · exact .inr (.inl ⟨h0, h, s.whenKeysComplete_of_few f h0 h⟩)
    · exact .inr (.inr ⟨h, s.whenKeysComplete_of_full f h⟩)

theorem State.withKey_cases (s : State) (idx : Nat) (f : Word → Word) :
    (s.KN ≤ idx ∧ s.withKey idx f = s.raise .keyIndex) ∨
    (idx < s.KN ∧ s.withKey idx f = s.answerBlock (f (s.readKey idx))) := by
  rcases Nat.lt_or_ge idx s.KN with h | h
  · exact .inr ⟨h, State.withKey_of_valid f h⟩
  · exact .inl ⟨h, State.withKey_of_invalid f h⟩

theorem State.withKeyPair_cases (s : State) (idx : Nat) (f : Word → Word → Word) :
    (s.KN ≤ idx + 1 ∧ s.withKeyPair idx f = s.raise .keyIndex) ∨
    (idx + 1 < s.KN ∧ s.withKeyPair idx f = s.answerBlock (f (s.readKey idx) (s.readKey (idx + 1)))) := by
  rcases Nat.lt_or_ge (idx + 1) s.KN with h | h
  · exact .inr ⟨h, State.withKeyPair_of_valid f h⟩
  · exact .inl ⟨h, State.withKeyPair_of_invalid f h⟩

/-- What a round step does: the last one ends the operation and answers, any other counts. -/
theorem State.roundStep_last {s : State} (h : s.RC = s.cfg.rounds - 1) :
    s.roundStep = { s with S := s.nextBlock, BUSY := false, RC := 0, rsp := some ⟨.ok, s.nextBlock⟩ } := by
  simp [State.roundStep, State.advance, State.respond, State.writeBlock, h]

theorem State.roundStep_middle {s : State} (h : s.RC ≠ s.cfg.rounds - 1) :
    s.roundStep = { s with S := s.nextBlock, RC := s.RC + 1 } := by
  simp [State.roundStep, State.advance, State.writeBlock, h]

/-- Everything an instruction can do to the state. -/
theorem exec_cases {i : Instr} {s t : State} (h : exec i s = .next t) :
    (∃ st, (st = .insufficientKey ∨ st = .missingKey ∨ st = .keyIndex ∨ st = .keyFull) ∧ t = s.raise st) ∨
    (∃ v, driver? i = none ∧ t = s.answerBlock v) ∨
    (i = .kclr ∧ t = s.dropKeys.respond .ok 0) ∨
    (∃ v, i = .kpush v ∧ s.KN ≠ s.cfg.keyCount ∧ t = (s.appendKey v).respond .ok (countData (s.KN + 1))) ∨
    (∃ dir p, driver? i = some (dir, p) ∧ s.cfg.keyCount ≤ s.KN ∧ t = s.accept dir p) := by
  have key : ∀ idx f, driver? i = none → t = s.withKey idx f →
      (∃ st, (st = .insufficientKey ∨ st = .missingKey ∨ st = .keyIndex ∨ st = .keyFull) ∧ t = s.raise st) ∨
      (∃ v, driver? i = none ∧ t = s.answerBlock v) := by
    intro idx f hd ht
    rcases s.withKey_cases idx f with ⟨-, h⟩ | ⟨-, h⟩
    · exact .inl ⟨.keyIndex, by simp, ht.trans h⟩
    · exact .inr ⟨_, hd, ht.trans h⟩
  have pair : ∀ idx f, driver? i = none → t = s.withKeyPair idx f →
      (∃ st, (st = .insufficientKey ∨ st = .missingKey ∨ st = .keyIndex ∨ st = .keyFull) ∧ t = s.raise st) ∨
      (∃ v, driver? i = none ∧ t = s.answerBlock v) := by
    intro idx f hd ht
    rcases s.withKeyPair_cases idx f with ⟨-, h⟩ | ⟨-, h⟩
    · exact .inl ⟨.keyIndex, by simp, ht.trans h⟩
    · exact .inr ⟨_, hd, ht.trans h⟩
  have drive : ∀ dir p, driver? i = some (dir, p) → t = s.whenKeysComplete (State.accept dir p) →
      (∃ st, (st = .insufficientKey ∨ st = .missingKey ∨ st = .keyIndex ∨ st = .keyFull) ∧ t = s.raise st) ∨
      (∃ dir p, driver? i = some (dir, p) ∧ s.cfg.keyCount ≤ s.KN ∧ t = s.accept dir p) := by
    intro dir p hd ht
    rcases s.whenKeysComplete_cases (State.accept dir p) with ⟨-, h⟩ | ⟨-, -, h⟩ | ⟨hk, h⟩
    · exact .inl ⟨.missingKey, by simp, ht.trans h⟩
    · exact .inl ⟨.insufficientKey, by simp, ht.trans h⟩
    · exact .inr ⟨dir, p, hd, hk, ht.trans h⟩
  cases i with
  | lds imm => cases h; exact .inr (.inl ⟨imm, rfl, rfl⟩)
  | rds => cases h; exact .inr (.inl ⟨s.S, rfl, rfl⟩)
  | kclr => cases h; exact .inr (.inr (.inl ⟨rfl, rfl⟩))
  | kpush imm =>
    simp only [exec, execKpush] at h
    split at h
    · cases h; exact .inl ⟨.keyFull, by simp, rfl⟩
    · next hk => cases h; exact .inr (.inr (.inr (.inl ⟨imm, rfl, hk, rfl⟩)))
  | mix idx => cases h; exact (key idx _ rfl rfl).imp id .inl
  | mixi imm => cases h; exact .inr (.inl ⟨_, rfl, rfl⟩)
  | sub => cases h; exact .inr (.inl ⟨_, rfl, rfl⟩)
  | isub => cases h; exact .inr (.inl ⟨_, rfl, rfl⟩)
  | perm => cases h; exact .inr (.inl ⟨_, rfl, rfl⟩)
  | rnd idx => cases h; exact (key idx _ rfl rfl).imp id .inl
  | irnd idx => cases h; exact (key idx _ rfl rfl).imp id .inl
  | lrnd idx => cases h; exact (pair idx _ rfl rfl).imp id .inl
  | ilrnd idx => cases h; exact (pair idx _ rfl rfl).imp id .inl
  | enc imm => cases h; exact (drive .enc imm rfl rfl).imp id fun h => .inr (.inr (.inr h))
  | dec imm => cases h; exact (drive .dec imm rfl rfl).imp id fun h => .inr (.inr (.inr h))

/-- Every instruction answers a next state. -/
theorem exec_answers (i : Instr) (s : State) : ∃ t, exec i s = .next t := by
  cases i with
  | kpush imm =>
    by_cases h : s.KN = s.cfg.keyCount
    · exact ⟨_, by simp only [exec, execKpush]; rw [if_pos h]⟩
    · exact ⟨_, by simp only [exec, execKpush]; rw [if_neg h]⟩
  | _ => exact ⟨_, rfl⟩

/-- Everything an edge can do: reset, wait, step a round, reject an illegal word, run an instruction. -/
theorem coreEdge_cases {e : Edge} {s t : State} (h : coreEdge e s = .next t) :
    (e.rst = true ∧ t = s.resetEdge) ∨
    (e.rst = false ∧ s.BUSY = true ∧ e.tick = true ∧ t = s.roundStep) ∨
    (e.rst = false ∧ s.BUSY = true ∧ e.tick = false ∧ t = s) ∨
    (e.rst = false ∧ s.BUSY = false ∧ e.command = none ∧ t = s) ∨
    (∃ c w, e.rst = false ∧ s.BUSY = false ∧ e.command = some c ∧ decode c = .error w ∧ t = s.raise .illegalCmd) ∨
    (∃ c i, e.rst = false ∧ s.BUSY = false ∧ e.command = some c ∧ decode c = .ok i ∧ exec i s = .next t) := by
  obtain ⟨rst, command, tick⟩ := e
  cases rst with
  | true => left; simp only [coreEdge] at h; cases h; exact ⟨rfl, rfl⟩
  | false =>
    cases hb : s.BUSY with
    | true =>
      simp only [coreEdge, State.cmdReady_eq, hb] at h
      cases tick with
      | true => cases h; simp
      | false => cases h; simp
    | false =>
      simp only [coreEdge, State.cmdReady_eq, hb] at h
      cases command with
      | none => cases h; simp
      | some c =>
        simp only [acceptCommand] at h
        cases hd : decode c with
        | error w =>
          simp only [hd] at h; cases h
          exact .inr (.inr (.inr (.inr (.inl ⟨c, w, rfl, rfl, rfl, hd, rfl⟩))))
        | ok i =>
          simp only [hd] at h
          exact .inr (.inr (.inr (.inr (.inr ⟨c, i, rfl, rfl, rfl, hd, h⟩))))

/-- A step is an edge on what stands at the ports. -/
theorem step_eq (s : State) : step s = coreEdge s.portIn s.passEdge := rfl

@[simp] theorem portIn_cons (s : State) (e : Edge) (es : List Edge) :
    State.portIn { s with inputs := e :: es } = e := rfl

end Sys2Proof.Machine
end

