-- ==== Sys2Proof/Laws/PerInstr.lean ====
section
/-! SUPPORT. Per-instruction families of LAWS.json: `EncodeFields`, the three fields of the word an instruction
is encoded in (30_encoding.md rule R51), one lemma for each constructor. -/

namespace Sys2Proof.Laws.EncodeFields

/-- The encoded word has the instruction's opcode, a reserved nibble of 0, and its index. -/
def Statement (i : Instr) : Prop :=
  opField (encode i).cmd = i.opcode ∧ rsvField (encode i).cmd = 0 ∧
    (i.WellFormed → (idxField (encode i).cmd).toNat = i.index?.getD 0)

/-- The fields of any encoded instruction whose index, if it has one, fits 8 bits when it is well formed. -/
theorem of_index {i : Instr} (h : i.WellFormed → i.index?.getD 0 < 256) : Statement i :=
  ⟨by simp [encode], by simp [encode], fun hw => by simp [encode, Nat.mod_eq_of_lt (h hw)]⟩

theorem lds (imm : Word) : Statement (.lds imm) := of_index fun _ => Nat.zero_lt_succ 255
theorem rds : Statement .rds := of_index fun _ => Nat.zero_lt_succ 255
theorem kclr : Statement .kclr := of_index fun _ => Nat.zero_lt_succ 255
theorem kpush (imm : Word) : Statement (.kpush imm) := of_index fun _ => Nat.zero_lt_succ 255
theorem mix (idx : Nat) : Statement (.mix idx) := of_index fun h => of_decide_eq_true h
theorem mixi (imm : Word) : Statement (.mixi imm) := of_index fun _ => Nat.zero_lt_succ 255
theorem sub : Statement .sub := of_index fun _ => Nat.zero_lt_succ 255
theorem isub : Statement .isub := of_index fun _ => Nat.zero_lt_succ 255
theorem perm : Statement .perm := of_index fun _ => Nat.zero_lt_succ 255
theorem rnd (idx : Nat) : Statement (.rnd idx) := of_index fun h => of_decide_eq_true h
theorem irnd (idx : Nat) : Statement (.irnd idx) := of_index fun h => of_decide_eq_true h
theorem lrnd (idx : Nat) : Statement (.lrnd idx) := of_index fun h => of_decide_eq_true h
theorem ilrnd (idx : Nat) : Statement (.ilrnd idx) := of_index fun h => of_decide_eq_true h
theorem enc (imm : Word) : Statement (.enc imm) := of_index fun _ => Nat.zero_lt_succ 255
theorem dec (imm : Word) : Statement (.dec imm) := of_index fun _ => Nat.zero_lt_succ 255

end Sys2Proof.Laws.EncodeFields
end

