-- ==== Sys2Proof/Laws/Run.lean ====
section
/-! SUPPORT. Runs of several steps and expansions of pseudo-instructions, taken apart. -/

namespace Sys2Proof.Machine

@[simp] theorem andThen_next (s : State) (f : State → Host.Outcome State Fault Refusal) :
    andThen (.next s) f = f s := rfl

theorem andThen_eq_next {o : Host.Outcome State Fault Refusal} {f : State → Host.Outcome State Fault Refusal}
    {t : State} (h : andThen o f = .next t) : ∃ s, o = .next s ∧ f s = .next t := by
  cases o with
  | next s => exact ⟨s, rfl, h⟩
  | fault r => cases h
  | refused r => cases h

/-! Pseudo-instructions: one command of an expansion, answered `OK` or not. -/

@[simp] theorem runPseudo_nil (s : State) : runPseudo [] s = .next s := rfl

theorem runPseudo_cons_of_ok {i : Instr} {s t : State} (is : List Instr) (h : execAtomic i s = .next t)
    (ok : t.answeredOk = true) : runPseudo (i :: is) s = runPseudo is t := by
  rw [runPseudo, h, andThen_next, if_pos ok]

theorem runPseudo_cons_of_error {i : Instr} {s t : State} (is : List Instr) (h : execAtomic i s = .next t)
    (error : t.answeredOk = false) : runPseudo (i :: is) s = .next t := by
  rw [runPseudo, h, andThen_next, if_neg (ne_true_of_eq_false error)]

@[simp] theorem run_zero (s : State) : run 0 s = .next s := rfl

theorem run_succ {s t : State} (n : Nat) (h : step s = .next t) : run (n + 1) s = run n t := by
  rw [run, h, andThen_next]

theorem responses_succ {s t : State} (n : Nat) (h : step s = .next t) :
    responses (n + 1) s = t.rsp.toList ++ responses n t := by
  rw [responses, h]

/-- A run that reaches `t` goes on from `t`. -/
theorem run_add {s t : State} (m n : Nat) (h : run m s = .next t) : run (m + n) s = run n t := by
  induction m generalizing s with
  | zero => cases h; rw [Nat.zero_add]
  | succ m ih =>
    obtain ⟨u, hu, hr⟩ := andThen_eq_next h
    rw [Nat.add_right_comm, run_succ _ hu, ih hr]

theorem responses_add {s t : State} (m n : Nat) (h : run m s = .next t) :
    responses (m + n) s = responses m s ++ responses n t := by
  induction m generalizing s with
  | zero => cases h; rw [Nat.zero_add]; rfl
  | succ m ih =>
    obtain ⟨u, hu, hr⟩ := andThen_eq_next h
    rw [Nat.add_right_comm, responses_succ _ hu, responses_succ _ hu, ih hr, List.append_assoc]

theorem hostRun_succ (M : Host.Core) {s t : M.State} (n : Nat) (h : M.step s = .next t) :
    M.run (n + 1) s = M.run n t := by
  rw [Host.Core.run, h]

/-- The model's run is the host's, as long as the steps go on. -/
theorem run_eq_hostRun {n : Nat} {s t : State} (h : run n s = .next t) :
    Host.Core.run Sys2Proof.core n s = .next t := by
  induction n generalizing s with
  | zero => exact h
  | succ n ih =>
    obtain ⟨u, hu, hr⟩ := andThen_eq_next h
    exact (hostRun_succ Sys2Proof.core n hu).trans (ih hr)

end Sys2Proof.Machine
end

