-- ==== Sys2Proof/Tests/Slice0.lean ====
section
/-! SUPPORT. Tests. Every expected value comes from the spec: 30_encoding.md, 95_test_vectors.md, or the rule a
comment names. Then the witnesses: for each statement with hypotheses, a concrete state and operands that meet them,
one for each clause, at the ends of its range. -/

namespace Sys2Proof.Tests

open Sys2Proof.Machine

/-- A core with `R = rounds`, block `S`, and the given keys pushed. -/
def coreWith (rounds : Nat) (S : Word) (keys : List Word) : State :=
  { State.resetOf { rounds := rounds } with
    S := S, K := keys ++ List.replicate (rounds + 1 - keys.length) 0, KN := keys.length }

/-- The store of 95_test_vectors.md section 3: `R = 2`, three keys. -/
def core2 (S : Word) : State := coreWith 2 S [0x1A2B, 0x3C4D, 0x5E6F]

/-- The same core with two of its three keys. -/
def core2few (S : Word) : State := coreWith 2 S [0x1A2B, 0x3C4D]

/-- The core of program P5: `R = 1`. -/
def core1 (S : Word) : State := coreWith 1 S [0x0123, 0x4567]

/-- What an outcome answers: status, `rdata`, and `S` after it. -/
def answer (o : Host.Outcome State Fault Refusal) : Option (Status × Word × Word) :=
  match o with
  | .next t => t.rsp.map fun r => (r.status, r.rdata, t.S)
  | .fault _ => none
  | .refused _ => none

/-- The sequencer after an outcome: `S`, `BUSY`, `RC`, and whether it answers. -/
def sequencer (o : Host.Outcome State Fault Refusal) : Option (Word × Bool × Nat × Bool) :=
  match o with
  | .next t => some (t.S, t.BUSY, t.RC, t.rspValid)
  | .fault _ => none
  | .refused _ => none

/-! ## Well-formedness: an index of 256 is refused (R51), one of 255 is not -/

theorem test_wf_mix : ¬ (Instr.mix 256).WellFormed ∧ (Instr.mix 255).WellFormed := by decide
theorem test_wf_rnd : ¬ (Instr.rnd 256).WellFormed ∧ (Instr.rnd 255).WellFormed := by decide
theorem test_wf_irnd : ¬ (Instr.irnd 256).WellFormed ∧ (Instr.irnd 255).WellFormed := by decide
theorem test_wf_lrnd : ¬ (Instr.lrnd 256).WellFormed ∧ (Instr.lrnd 255).WellFormed := by decide
theorem test_wf_ilrnd : ¬ (Instr.ilrnd 256).WellFormed ∧ (Instr.ilrnd 255).WellFormed := by decide

/-! ## Decoding: each word written out bit by bit as `OP RSV IDX` (R51, R53; 95_test_vectors.md section 7) -/

theorem test_decode_lds : decodeTableWord 32 0b10010001101000001000000000000 = some (.lds 0x1234) := by decide
theorem test_decode_rds : decodeTableWord 16 0b0010000000000000 = some .rds := by decide
theorem test_decode_kclr : decodeTableWord 16 0b0011000000000000 = some .kclr := by decide
theorem test_decode_kpush : decodeTableWord 16 0b0100000000000000 = some (.kpush 0) := by decide
theorem test_decode_mix : decodeTableWord 16 0b0101000011111111 = some (.mix 255) := by decide
theorem test_decode_mixi : decodeTableWord 32 0b11111111111111110110000000000000 = some (.mixi 0xFFFF) := by decide
theorem test_decode_sub : decodeTableWord 32 0b11011110101011010111000000000000 = some .sub := by decide
theorem test_decode_isub : decodeTableWord 16 0b1000000000000000 = some .isub := by decide
theorem test_decode_perm : decodeTableWord 16 0b1001000000000000 = some .perm := by decide
theorem test_decode_rnd : decodeTableWord 16 0b1010000000000011 = some (.rnd 3) := by decide
theorem test_decode_irnd : decodeTableWord 16 0b1011000000000011 = some (.irnd 3) := by decide
theorem test_decode_lrnd : decodeTableWord 16 0b1100000000000011 = some (.lrnd 3) := by decide
theorem test_decode_ilrnd : decodeTableWord 16 0b1101000000000011 = some (.ilrnd 3) := by decide
theorem test_decode_enc : decodeTableWord 16 0b1110000000000000 = some (.enc 0) := by decide
theorem test_decode_dec : decodeTableWord 16 0b1111000000000000 = some (.dec 0) := by decide

/-- Every kind of illegal word of 95_test_vectors.md section 7. -/
theorem test_decode_illegal :
    [0x0000, 0x0FFF, 0x0001, 0x7100, 0x5100, 0xE800, 0x7001, 0xE0FF, 0x2080, 0xFFFF].map (decodeTableWord 16)
      = List.replicate 10 none := by decide

/-- R58: `ENC #0xFFFF` is `E000FFFF`, `MIX k2` is `50020000`. -/
theorem test_record : (encode (.enc 0xFFFF)).record = 0xE000FFFF ∧ (encode (.mix 2)).record = 0x50020000 := by decide

/-- R58: the three operand forms, a decimal number, a comment, and a wrong operand. -/
theorem test_assemble :
    (assembleLine "ENC #0xFFFF".toList).map Command.record = some 0xE000FFFF ∧
    (assembleLine "MIX k2 ; second key".toList).map Command.record = some 0x50020000 ∧
    (assembleLine "LDS #4660".toList).map Command.record = some 0x10001234 ∧
    (assembleLine "PERM".toList).map Command.record = some 0x90000000 ∧
    assembleLine "MIX k256".toList = none := by decide

/-! ## Layers and rounds (95_test_vectors.md sections 3 and 4) -/

theorem test_subLayer : subLayer 0x89AB = 0x1F3D ∧ subLayer 0xF000 = 0xB666 := by decide
theorem test_invSubLayer : invSubLayer 0x4567 = 0x1305 ∧ invSubLayer 0xF000 = 0x9444 := by decide
theorem test_permLayer : permLayer 0xBEEF = 0xF7F9 ∧ permLayer 0xABCD = 0xF3C5 := by decide
theorem test_fullRound : fullRound 0xABCD 0xABCD = 0x0FF0 ∧ invFullRound 0xABCD 0xABCD = 0x31EE := by decide
theorem test_lastRound : lastRound 0x1234 0x1234 0xFFFF = 0x9999 ∧ invLastRound 0x1234 0x1234 0xFFFF = 0x691B := by decide

/-! ## Commands (95_test_vectors.md sections 3 and 4, programs P1, P3, P5) -/

theorem test_lds : answer (exec (.lds 0x1234) (core2 0xFFFF)) = some (.ok, 0x1234, 0x1234) := by decide
theorem test_rds : answer (exec .rds (core2 0xFFFF)) = some (.ok, 0xFFFF, 0xFFFF) := by decide
theorem test_kclr : answer (exec .kclr (core2 0x942C)) = some (.ok, 0x0000, 0x942C) := by decide
theorem test_kpush : answer (exec (.kpush 0x0006) (coreWith 5 0xD99A [1, 2, 3, 4, 5])) = some (.ok, 0x0006, 0xD99A) := by decide
theorem test_kpush_full : answer (exec (.kpush 0x89AB) (core1 0)) = some (.keyFull, 0x0000, 0) := by decide
theorem test_mix : answer (exec (.mix 0) (core2 0x1234)) = some (.ok, 0x081F, 0x081F) := by decide
theorem test_mix_invalid : answer (exec (.mix 3) (core2 0x1234)) = some (.keyIndex, 0x0000, 0x1234) := by decide
theorem test_mixi : answer (exec (.mixi 0x0001) (core2 0xFFFF)) = some (.ok, 0xFFFE, 0xFFFE) := by decide
theorem test_sub : answer (exec .sub (core2 0x081F)) = some (.ok, 0x614B, 0x614B) := by decide
theorem test_isub : answer (exec .isub (core2 0x614B)) = some (.ok, 0x081F, 0x081F) := by decide
theorem test_perm : answer (exec .perm (core2 0x614B)) = some (.ok, 0x1A95, 0x1A95) := by decide
theorem test_rnd : answer (exec (.rnd 2) (core2 0x1A95)) = some (.ok, 0x2033, 0x2033) := by decide
theorem test_irnd : answer (exec (.irnd 0) (core2 0x1A95)) = some (.ok, 0x1234, 0x1234) := by decide
theorem test_lrnd : answer (exec (.lrnd 1) (core2 0x1A95)) = some (.ok, 0x9CCE, 0x9CCE) := by decide
theorem test_lrnd_invalid : answer (exec (.lrnd 2) (core2 0x1A95)) = some (.keyIndex, 0x0000, 0x1A95) := by decide
theorem test_ilrnd : answer (exec (.ilrnd 1) (core2 0x9CCE)) = some (.ok, 0x1A95, 0x1A95) := by decide
theorem test_ilrnd_no_wrap : answer (exec (.ilrnd 255) (core2 0x1A95)) = some (.keyIndex, 0x0000, 0x1A95) := by decide
theorem test_enc_accepted : sequencer (exec (.enc 0xFFFF) (core1 0)) = some (0xFFFF, true, 0, false) := by decide
theorem test_enc_few_keys : answer (exec (.enc 0xFFFF) (coreWith 5 0xBEEF [1, 2])) = some (.insufficientKey, 0x0000, 0xBEEF) := by decide
theorem test_dec_accepted : sequencer (exec (.dec 0x6C19) (core2 0)) = some (0x6C19, true, 0, false) := by decide
theorem test_dec_no_keys : answer (exec (.dec 0x1234) State.reset) = some (.missingKey, 0x0000, 0x0000) := by decide

/-- 95_test_vectors.md section 6, one round step in the middle of an `ENC` and the last one of a `DEC` (`R = 5`, six
keys 0x0001). -/
def busy5 (dir : Dir) (S : Word) (rc : Nat) : State :=
  { coreWith 5 S (List.replicate 6 0x0001) with BUSY := true, DIR := dir, RC := rc }

theorem test_roundStep_enc : sequencer (.next (busy5 .enc 0xF0EF 1).roundStep) = some (0xB4CB, true, 2, false) := by decide
theorem test_roundStep_enc_last : sequencer (.next (busy5 .enc 0x028D 4).roundStep) = some (0x6C19, false, 0, true) := by decide
theorem test_roundStep_dec : sequencer (.next (busy5 .dec 0x6C19 0).roundStep) = some (0x028D, true, 1, false) := by decide
theorem test_roundStep_dec_last : sequencer (.next (busy5 .dec 0xF0EF 4).roundStep) = some (0xFFFF, false, 0, true) := by decide

/-- The first instruction after reset, and an illegal word (program P3, steps 4 and 8). -/
theorem test_step_lds : answer (step (State.reset.withFetchWord 32 0xBEEF1000)) = some (.ok, 0xBEEF, 0xBEEF) := by decide
theorem test_step_illegal : answer (step (State.reset.withFetchWord 16 0x7100)) = some (.illegalCmd, 0x0000, 0x0000) := by decide

/-- The status numbers of R140. -/
theorem test_status_codes : Status.insufficientKey.code = 2 ∧ Status.missingKey.code = 3 ∧ Status.keyFull.code = 7 := by decide

/-! ## Witnesses -/

theorem witness_DecodeOfEncode : (Instr.ilrnd 255).WellFormed ∧ (Instr.enc 0xFFFF).WellFormed := by decide

theorem witness_EncodeOfDecode :
    decode ⟨0xD0FF, 0x1234⟩ = .ok (.ilrnd 255) ∧ (Instr.ilrnd 255).data? = none ∧
    decode ⟨0xF000, 0x1234⟩ = .ok (.dec 0x1234) ∧ (Instr.dec 0x1234).data? = some 0x1234 := by
  refine ⟨by rfl, rfl, by rfl, rfl⟩

theorem witness_DecodeFollowsTheOpcodeMap :
    decode ⟨0x50FF, 0⟩ = .ok (.mix 255) ∧ (⟨"MIX", 0x5000, 0xFF00⟩ : OpcodeRow) ∈ opcodeTable ∧
    (⟨"MIX", 0x5000, 0xFF00⟩ : OpcodeRow).covers 0x50FF = true := by
  refine ⟨by rfl, by decide, by decide⟩

theorem witness_AssembleOfListing : (Instr.mix 255).WellFormed ∧ listing (.mix 255) = "MIX k255".toList := by decide

theorem witness_StepRunsTheDecodedCommand : State.reset.BUSY = false ∧ decode ⟨0x1000, 0xBEEF⟩ = .ok (.lds 0xBEEF) := by
  refine ⟨rfl, by rfl⟩

theorem witness_IllegalCommandAnswersItsCode :
    State.reset.BUSY = false ∧ decode ⟨0x0000, 0⟩ = .error .opcodeZero ∧ decode ⟨0x5100, 0⟩ = .error .reservedNotZero ∧
      decode ⟨0x2080, 0⟩ = .error .indexNotZero := by
  refine ⟨rfl, by rfl, by rfl, by rfl⟩

theorem witness_NothingIsAcceptedWhileBusy : (busy5 .enc 0xFFFF 0).BUSY = true ∧ State.reset.BUSY = false := by decide

theorem witness_KpushAppendsAKey :
    (State.reset.wf ∧ State.reset.KN ≠ State.reset.cfg.rounds + 1) ∧
    ((core2few 0).wf ∧ (core2few 0).KN ≠ (core2few 0).cfg.rounds + 1 ∧ (core2few 0).KN = (core2few 0).cfg.rounds) := by decide

theorem witness_KpushOnAFullStore : (core2 0).KN = (core2 0).cfg.rounds + 1 := by decide

theorem witness_MixMixesAStoredKey : 2 < (core2 0).KN ∧ (core2 0).KN ≤ 3 := by decide

theorem witness_RoundCommands : 2 < (core2 0).KN ∧ (core2 0).KN ≤ 3 := by decide

theorem witness_LastRoundCommands : 1 + 1 < (core2 0).KN ∧ (core2 0).KN ≤ 2 + 1 ∧ (core2 0).wf := by decide

theorem witness_DriversFollowTheKeySequence : ([] : List Word).length + 1 = 1 ∧ [(0x0F0F : Word), 0x3C3C].length + 1 = 3 := by decide

theorem witness_DriversRoundTrip :
    1 ≤ 1 ∧ [(0x0123 : Word), 0x4567].length = 1 + 1 ∧ 0 ≤ 1 ∧ 1 ≤ 1 := by decide

theorem witness_DriverChecks :
    State.reset.KN = 0 ∧
    (0 < (coreWith 2 0 [1]).KN ∧ (coreWith 2 0 [1]).KN < (coreWith 2 0 [1]).cfg.rounds + 1) ∧
    (0 < (core2few 0).KN ∧ (core2few 0).KN < (core2few 0).cfg.rounds + 1) := by decide

theorem witness_EncEncryptsItsOperand :
    ((core1 0).wf ∧ (core1 0).KN = (core1 0).cfg.rounds + 1) ∧
    ((coreWith 255 0 (List.replicate 256 0)).wf ∧ (coreWith 255 0 (List.replicate 256 0)).KN = 255 + 1) := by decide +kernel

theorem witness_DecDecryptsItsOperand : (core2 0).wf ∧ (core2 0).KN = (core2 0).cfg.rounds + 1 := by decide

/-- One state for each of the six clauses. -/
theorem witness_RoundStepOfTheSequencer :
    ((busy5 .enc 0 3).DIR = .enc ∧ (busy5 .enc 0 3).RC < 5 - 1) ∧
    ((busy5 .enc 0 4).DIR = .enc ∧ (busy5 .enc 0 4).RC = (busy5 .enc 0 4).cfg.rounds - 1) ∧
    ((busy5 .dec 0 0).DIR = .dec ∧ (busy5 .dec 0 0).RC = 0 ∧ (busy5 .dec 0 0).cfg.rounds ≠ 1 ∧
      1 ≤ (busy5 .dec 0 0).cfg.rounds) ∧
    ((busy5 .dec 0 1).DIR = .dec ∧ (busy5 .dec 0 1).RC ≠ 0 ∧ (busy5 .dec 0 1).RC < (busy5 .dec 0 1).cfg.rounds - 1) ∧
    ((busy5 .dec 0 4).DIR = .dec ∧ (busy5 .dec 0 4).RC ≠ 0 ∧ (busy5 .dec 0 4).RC = (busy5 .dec 0 4).cfg.rounds - 1) ∧
    (({ core1 0 with DIR := .dec } : State).DIR = .dec ∧ (core1 0).RC = 0 ∧ (core1 0).cfg.rounds = 1) := by decide

theorem witness_ValuesBetweenRoundSteps : 0 < (core1 0).cfg.rounds ∧ 4 < (busy5 .enc 0 0).cfg.rounds ∧ 1 ≤ 1 := by decide

/-- `R = 2`: one edge at which the sequencer is not done, one at which it is, and the last one; the host presents an
illegal command meanwhile. -/
theorem witness_SequencerComputesTheDriver :
    (core2 0).wf ∧ (core2 0).BUSY = false ∧ (core2 0).KN = (core2 0).cfg.rounds + 1 ∧
    driver? (.dec 0x9CCE) = some (.dec, 0x9CCE) ∧
    noReset [⟨false, some ⟨0, 0⟩, false⟩, ⟨false, none, true⟩] = true ∧ idleEdge.rst = false ∧
    tickCount [⟨false, some ⟨0, 0⟩, false⟩, ⟨false, none, true⟩] = (core2 0).cfg.rounds - 1 ∧ idleEdge.tick = true := by decide

theorem witness_SequencerComputesTheDriver_command : decode ⟨0xF000, 0x9CCE⟩ = .ok (.dec 0x9CCE) := by rfl

/-- The first clause at 0 and at the most edges, the second at the last round step alone. -/
theorem witness_BusyAlwaysEnds :
    ((busy5 .enc 0 0).wf ∧ (busy5 .enc 0 0).BUSY = true ∧ noReset [] = true ∧ tickCount [] < 5 - (busy5 .enc 0 0).RC) ∧
    (noReset (List.replicate 4 idleEdge) = true ∧ tickCount (List.replicate 4 idleEdge) < 5 - (busy5 .enc 0 0).RC) ∧
    ((busy5 .dec 0 4).wf ∧ (busy5 .dec 0 4).BUSY = true ∧ tickCount [] + 1 = 5 - (busy5 .dec 0 4).RC) := by decide

theorem witness_SequencerRefinesAtomicMachine : State.reset.wf ∧ State.reset.BUSY = false := by decide

theorem witness_ErrorsChangeNothing :
    (∃ t r, acceptCommand ⟨0xF000, 0x1234⟩ State.reset = .next t ∧ t.rsp = some r ∧ r.status ≠ .ok) ∧
    (∃ t r, step (State.reset.presentNext ⟨0xF000, 0x1234⟩) = .next t ∧ t.rsp = some r ∧ r.status ≠ .ok) :=
  ⟨⟨_, _, rfl, rfl, by decide⟩, ⟨_, _, rfl, rfl, by decide⟩⟩

theorem witness_PermAppliesTheLayer :
    ∀ j < 4, ∀ b < 4, (core2 0x8421).S.getLsbD (4 * j + b) = (core2 0x8421).S.getLsbD (4 * b + j) := by decide

theorem witness_ErrorCauses :
    (∃ t, acceptCommand ⟨0x0000, 0⟩ State.reset = .next t ∧ t.rsp = some ⟨.illegalCmd, 0⟩) ∧
    (∃ t, acceptCommand ⟨0xC002, 0⟩ (core2 0) = .next t ∧ t.rsp = some ⟨.keyIndex, 0⟩) ∧
    (∃ t, acceptCommand ⟨0x4000, 0⟩ (core2 0) = .next t ∧ t.rsp = some ⟨.keyFull, 0⟩) ∧
    (∃ t, acceptCommand ⟨0xE000, 0⟩ State.reset = .next t ∧ t.rsp = some ⟨.missingKey, 0⟩) ∧
    (∃ t, acceptCommand ⟨0xE000, 0⟩ (core2few 0) = .next t ∧ t.rsp = some ⟨.insufficientKey, 0⟩) :=
  ⟨⟨_, rfl, rfl⟩, ⟨_, rfl, rfl⟩, ⟨_, rfl, rfl⟩, ⟨_, rfl, rfl⟩, ⟨_, rfl, rfl⟩⟩

/-- A command answered at once, and the last round step. -/
theorem witness_OneResponseForEachCommand :
    (∃ t, (State.reset.withFetchWord 16 0x2000).wf ∧ step (State.reset.withFetchWord 16 0x2000) = .next t ∧
      t.rspValid = true) ∧
    (∃ t, ({ busy5 .enc 0 4 with inputs := [idleEdge] } : State).wf ∧
      step { busy5 .enc 0 4 with inputs := [idleEdge] } = .next t ∧ t.rspValid = true) :=
  ⟨⟨_, by decide, rfl, rfl⟩, ⟨_, by decide, rfl, rfl⟩⟩

theorem witness_ResponseCarriesTheBlock :
    ∃ t r, exec .sub (core2 0) = .next t ∧ t.rsp = some r ∧ r.status = .ok ∧ driver? .sub = none :=
  ⟨_, _, rfl, rfl, rfl, rfl⟩

theorem witness_FrameOfBlockCommands : ∃ t, exec (.lrnd 1) (core2 0) = .next t := ⟨_, rfl⟩

theorem witness_FrameOfStoreCommands :
    (∃ t, exec (.kpush 7) (core2few 0) = .next t) ∧ ∃ t, exec .kclr (core2 0) = .next t := ⟨⟨_, rfl⟩, ⟨_, rfl⟩⟩

theorem witness_FrameOfDrivers :
    (∃ t, exec (.enc 7) (core2 0) = .next t) ∧ ∃ t, exec (.dec 7) (core2 0) = .next t := ⟨⟨_, rfl⟩, ⟨_, rfl⟩⟩

theorem witness_EveryStepKeepsTheCoreWellFormed : ∃ t, (core2 0).wf ∧ step (core2 0) = .next t := ⟨_, by decide, rfl⟩

theorem witness_ResetIsWellFormed : (⟨1⟩ : Config).wf ∧ (⟨255⟩ : Config).wf := by decide

theorem witness_RoundCountNeverChanges : ∃ t, step (core2 0) = .next t := ⟨_, rfl⟩

/-- An accepted `KPUSH`, which does change an entry. -/
theorem witness_KeysChangeOnlyByTheirCommands :
    ∃ t, (State.reset.withFetchWord 32 0x00074000).inputs = [presentEdge ⟨0x4000, 7⟩] ∧
      step (State.reset.withFetchWord 32 0x00074000) = .next t ∧ (presentEdge ⟨0x4000, 7⟩).rst = false ∧
      t.K ≠ State.reset.K :=
  ⟨_, by decide, rfl, rfl, by decide⟩

/-- Two stores that differ in the one invalid entry of `core2few`. -/
theorem witness_InvalidKeyEntriesAreUnobservable :
    (core2few 0).wf ∧ [(0x1A2B : Word), 0x3C4D, 0xFFFF].length = (core2few 0).K.length ∧
    (∀ j, j < (core2few 0).KN → [(0x1A2B : Word), 0x3C4D, 0xFFFF].getD j 0 = (core2few 0).readKey j) ∧
    [(0x1A2B : Word), 0x3C4D, 0xFFFF] ≠ (core2few 0).K := by decide

theorem witness_AStoredKeyCanBeReadBack : 2 < (core2 0).KN := by decide

theorem witness_KloadFillsTheStore : (core2 0).wf ∧ [(1 : Word), 2, 3].length = (core2 0).cfg.rounds + 1 := by decide

theorem witness_KeyedPseudoInstructions : State.reset.wf ∧ [(1 : Word), 2, 3, 4, 5, 6].length = State.reset.cfg.rounds + 1 := by decide

/-- The general clause, after no command and after one: the second key of `core1`'s store and then a third. -/
theorem witness_PseudoInstructionStopsAtAnError_general :
    (∃ t u, runPseudo [] (core2 0) = .next t ∧ execAtomic (.kpush 7) t = .next u ∧ u.answeredOk = false) ∧
    (∃ t u, runPseudo [.kpush 1] (coreWith 1 0 [5]) = .next t ∧ t.answeredOk = true ∧
      execAtomic (.kpush 2) t = .next u ∧ u.answeredOk = false) :=
  ⟨⟨_, _, rfl, rfl, rfl⟩, ⟨_, _, rfl, rfl, rfl, rfl⟩⟩

/-- None, one, one too few, and one too many. -/
theorem witness_PseudoInstructionStopsAtAnError :
    (core2 0).wf ∧ ([] : List Word) = [] ∧
    (0 < [(1 : Word)].length ∧ [(1 : Word)].length < (core2 0).cfg.rounds + 1) ∧
    (0 < [(1 : Word), 2].length ∧ [(1 : Word), 2].length < (core2 0).cfg.rounds + 1) ∧
    ((core2 0).cfg.rounds + 1 < [(1 : Word), 2, 3, 4].length) := by decide

/-- Rules R59, R147: `DECK` and `KLOAD` with one key too many (`R = 1`), and `DECK` with one too few. -/
theorem test_pseudo_errors :
    answer (runPseudo (deck 0xFFFF [1, 2, 3]) (core1 0xBEEF)) = some (.keyFull, 0x0000, 0xBEEF) ∧
    answer (runPseudo (kload [1, 2, 3]) (core1 0xBEEF)) = some (.keyFull, 0x0000, 0xBEEF) ∧
    answer (runPseudo (deck 0xFFFF [1]) (core1 0xBEEF)) = some (.insufficientKey, 0x0000, 0xBEEF) := by decide

end Sys2Proof.Tests
end

section
/-! The invariant of the core and the frame of a step: what each operation keeps, then what `exec`, an edge and a step
keep, and the obligations of the family 00_scope. -/

namespace Sys2Proof.Machine

/-! ### The invariant, one lemma for each operation -/

/-- Rule R18: a ready sequencer is well formed as soon as its count is 0. -/
theorem State.sequencerWf_of_ready {s : State} (hc : s.cfg.wf) (hb : s.BUSY = false) (h0 : s.RC = 0) :
    s.sequencerWf :=
  ⟨h0 ▸ hc.1, fun _ => h0, fun h => absurd (hb.symm.trans h) Bool.false_ne_true⟩

/-- Rules R2, R24: reset meets the invariant. -/
theorem State.wf_resetOf {c : Config} (hc : c.wf) : (State.resetOf c).wf := by
  have hstore : (State.resetOf c).storeWf := ⟨List.length_replicate, Nat.zero_le _⟩
  exact ⟨hc, hstore, State.sequencerWf_of_ready hc rfl rfl, rfl⟩

/-- A reset in mid-operation too: only the build parameter matters. The inputs to come play no part in `State.wf`. -/
theorem State.wf_resetEdge {s : State} (hc : s.cfg.wf) : s.resetEdge.wf := State.wf_resetOf hc

theorem State.wf_passEdge {s : State} (hs : s.wf) : s.passEdge.wf := by
  obtain ⟨hcfg, hstore, ⟨hrc, hidle, hbusy⟩, -⟩ := hs
  exact ⟨hcfg, hstore, ⟨hrc, hidle, fun hb => ⟨(hbusy hb).1, rfl⟩⟩, rfl⟩

/-- Rule R60: a ready core may present any legal response. -/
theorem State.wf_respond {s : State} {st : Status} {v : Word} (hs : s.wf) (hb : s.BUSY = false)
    (hr : (Response.mk st v).legal = true) : (s.respond st v).wf := by
  obtain ⟨hcfg, hstore, ⟨-, hidle, -⟩, -⟩ := hs
  exact ⟨hcfg, hstore, State.sequencerWf_of_ready hcfg hb (hidle hb), hr⟩

/-- The invariant does not speak of the block register. -/
theorem State.wf_writeBlock {s : State} (v : Word) (hs : s.wf) : (s.writeBlock v).wf := hs

theorem State.wf_answerBlock {s : State} (v : Word) (hs : s.wf) (hb : s.BUSY = false) : (s.answerBlock v).wf :=
  State.wf_respond (State.wf_writeBlock v hs) hb rfl

/-- Rules R14, R132. -/
theorem State.wf_dropKeys {s : State} (hs : s.wf) (hb : s.BUSY = false) : s.dropKeys.wf := by
  obtain ⟨hcfg, ⟨hlen, -⟩, ⟨-, hidle, -⟩, hrsp⟩ := hs
  exact ⟨hcfg, ⟨hlen, Nat.zero_le _⟩, State.sequencerWf_of_ready hcfg hb (hidle hb), hrsp⟩

/-- Rules R14, R32: a store that is not full has room for one key. -/
theorem State.wf_appendKey {s : State} (v : Word) (hs : s.wf) (hb : s.BUSY = false) (hk : s.KN ≠ s.cfg.keyCount) :
    (s.appendKey v).wf := by
  obtain ⟨hcfg, ⟨hlen, hkn⟩, ⟨-, hidle, -⟩, hrsp⟩ := hs
  have hstore : (s.appendKey v).storeWf := ⟨by simpa using hlen, Nat.lt_of_le_of_ne hkn hk⟩
  exact ⟨hcfg, hstore, State.sequencerWf_of_ready hcfg hb (hidle hb), hrsp⟩

/-- Rules R120, R121: an operation starts over a full store, at round 0, with no response. -/
theorem State.wf_accept {s : State} (dir : Dir) (p : Word) (hs : s.wf) (hk : s.cfg.keyCount ≤ s.KN) :
    (s.accept dir p).wf := by
  obtain ⟨hcfg, ⟨hlen, hkn⟩, -, -⟩ := hs
  exact ⟨hcfg, ⟨hlen, hkn⟩, ⟨hcfg.1, fun _ => rfl, fun _ => ⟨Nat.le_antisymm hkn hk, rfl⟩⟩, rfl⟩

/-- Rules R117, R118: the last round step leaves a ready core that answers `OK`; any other leaves `RC` below `R`. -/
theorem State.wf_roundStep {s : State} (hs : s.wf) (hb : s.BUSY = true) : s.roundStep.wf := by
  obtain ⟨hcfg, hstore, ⟨hrc, -, hbusy⟩, hrsp⟩ := hs
  by_cases hlast : s.RC = s.cfg.rounds - 1
  · rw [State.roundStep_last hlast]
    exact ⟨hcfg, hstore, State.sequencerWf_of_ready hcfg rfl rfl, rfl⟩
  · rw [State.roundStep_middle hlast]
    have hnext : s.RC + 1 < s.cfg.rounds := by omega
    exact ⟨hcfg, hstore, ⟨hnext, fun h => absurd (h.symm.trans hb) Bool.false_ne_true, hbusy⟩, hrsp⟩

/-! ### The invariant, along `exec`, an edge and a step -/

/-- An instruction accepted by a ready core keeps the invariant. -/
theorem exec_wf {i : Instr} {s t : State} (hs : s.wf) (hb : s.BUSY = false) (h : exec i s = .next t) : t.wf := by
  rcases exec_cases h with ⟨st, hst, rfl⟩ | ⟨v, -, rfl⟩ | ⟨-, rfl⟩ | ⟨v, -, hk, rfl⟩ | ⟨dir, p, -, hk, rfl⟩
  · have hlegal : (Response.mk st 0).legal = true := by rcases hst with rfl | rfl | rfl | rfl <;> rfl
    exact State.wf_respond hs hb hlegal
  · exact State.wf_answerBlock v hs hb
  · exact State.wf_respond (State.wf_dropKeys hs hb) hb rfl
  · exact State.wf_respond (State.wf_appendKey v hs hb hk) hb rfl
  · exact State.wf_accept dir p hs hk

theorem coreEdge_wf {e : Edge} {s t : State} (hs : s.wf) (h : coreEdge e s = .next t) : t.wf := by
  rcases coreEdge_cases h with ⟨-, rfl⟩ | ⟨-, hb, -, rfl⟩ | ⟨-, -, -, rfl⟩ | ⟨-, -, -, rfl⟩ |
    ⟨c, w, -, hb, -, -, rfl⟩ | ⟨c, i, -, hb, -, -, hexec⟩
  case inl => exact State.wf_resetEdge hs.1
  case inr.inl => exact State.wf_roundStep hs hb
  case inr.inr.inl => exact hs
  case inr.inr.inr.inl => exact hs
  case inr.inr.inr.inr.inl => exact State.wf_respond hs hb rfl
  case inr.inr.inr.inr.inr => exact exec_wf hs hb hexec

theorem step_wf {s t : State} (hs : s.wf) (h : step s = .next t) : t.wf :=
  coreEdge_wf (State.wf_passEdge hs) ((step_eq s).symm.trans h)

/-! ### What no operation writes: the build parameter and the inputs to come -/

@[simp] theorem State.roundStep_cfg (s : State) : s.roundStep.cfg = s.cfg := by
  by_cases hlast : s.RC = s.cfg.rounds - 1
  · rw [State.roundStep_last hlast]
  · rw [State.roundStep_middle hlast]

@[simp] theorem State.roundStep_inputs (s : State) : s.roundStep.inputs = s.inputs := by
  by_cases hlast : s.RC = s.cfg.rounds - 1
  · rw [State.roundStep_last hlast]
  · rw [State.roundStep_middle hlast]

/-- No instruction writes the build parameter or the inputs to come (R2, R21). -/
theorem exec_cfg_inputs {i : Instr} {s t : State} (h : exec i s = .next t) : t.cfg = s.cfg ∧ t.inputs = s.inputs := by
  rcases exec_cases h with ⟨st, -, rfl⟩ | ⟨v, -, rfl⟩ | ⟨-, rfl⟩ | ⟨v, -, -, rfl⟩ | ⟨dir, p, -, -, rfl⟩ <;>
    exact ⟨rfl, rfl⟩

theorem coreEdge_cfg_inputs {e : Edge} {s t : State} (h : coreEdge e s = .next t) :
    t.cfg = s.cfg ∧ t.inputs = s.inputs := by
  rcases coreEdge_cases h with ⟨-, rfl⟩ | ⟨-, -, -, rfl⟩ | ⟨-, -, -, rfl⟩ | ⟨-, -, -, rfl⟩ |
    ⟨c, w, -, -, -, -, rfl⟩ | ⟨c, i, -, -, -, -, hexec⟩
  case inr.inl => exact ⟨s.roundStep_cfg, s.roundStep_inputs⟩
  case inr.inr.inr.inr.inr => exact exec_cfg_inputs hexec
  all_goals exact ⟨rfl, rfl⟩

/-- A step takes the inputs of one edge, which `passEdge` drops, and changes neither them nor `R` after that. -/
theorem step_cfg_inputs {s t : State} (h : step s = .next t) : t.cfg = s.cfg ∧ t.inputs = s.inputs.tail :=
  coreEdge_cfg_inputs ((step_eq s).symm.trans h)

/-! ### The obligations -/

/-- Settles O48: each operation keeps the invariant, hence so does an edge on what stands at the ports. -/
theorem everyStepKeepsTheCoreWellFormed : Obligations.EveryStepKeepsTheCoreWellFormed :=
  fun _ _ hs h => step_wf hs h

/-- Settles O51, from the frame of an edge. -/
theorem roundCountNeverChanges : Obligations.RoundCountNeverChanges :=
  fun _ _ h => step_cfg_inputs h

/-- Settles O49: `R` at least 1 puts `RC = 0` below it, and an empty count fits any store. -/
theorem resetIsWellFormed : Obligations.ResetIsWellFormed :=
  fun _ hc => State.wf_resetOf hc

end Sys2Proof.Machine
end

section
/-! What one edge does, said once for each kind of edge; then that no edge stops the machine. -/

namespace Sys2Proof.Machine

/-! ### Executing a presented command -/

theorem acceptCommand_of_legal {c : Command} {i : Instr} (s : State) (h : decode c = .ok i) :
    acceptCommand c s = exec i s := by
  rw [acceptCommand, h]

theorem acceptCommand_of_illegal {c : Command} {w : Illegal} (s : State) (h : decode c = .error w) :
    acceptCommand c s = .next (s.raise .illegalCmd) := by
  rw [acceptCommand, h]

/-- The meaning of a driver command: its checks, then acceptance (R113, R114, R121). -/
theorem exec_of_driver {i : Instr} {dir : Dir} {p : Word} (s : State) (h : driver? i = some (dir, p)) :
    exec i s = .next (s.whenKeysComplete (State.accept dir p)) := by
  cases i with
  | enc imm => cases h; rfl
  | dec imm => cases h; rfl
  | _ => cases h

theorem exec_kpush_of_full {s : State} (v : Word) (h : s.KN = s.cfg.keyCount) :
    exec (.kpush v) s = .next (s.raise .keyFull) := by
  simp only [exec, execKpush]; rw [if_pos h]

theorem exec_kpush_of_room {s : State} (v : Word) (h : s.KN ≠ s.cfg.keyCount) :
    exec (.kpush v) s = .next ((s.appendKey v).respond .ok (countData (s.KN + 1))) := by
  simp only [exec, execKpush]; rw [if_neg h]

/-! ### The kinds of edge -/

theorem coreEdge_of_reset {e : Edge} (s : State) (hr : e.rst = true) : coreEdge e s = .next s.resetEdge := by
  rw [coreEdge, if_pos hr]

theorem coreEdge_of_command {e : Edge} {s : State} {c : Command} (hr : e.rst = false) (hb : s.BUSY = false)
    (hc : e.command = some c) : coreEdge e s = acceptCommand c s := by
  simp [coreEdge, hr, hb, hc]

theorem coreEdge_of_idle {e : Edge} {s : State} (hr : e.rst = false) (hb : s.BUSY = false)
    (hc : e.command = none) : coreEdge e s = .next s := by
  simp [coreEdge, hr, hb, hc]

theorem coreEdge_of_tick {e : Edge} {s : State} (hr : e.rst = false) (hb : s.BUSY = true) (ht : e.tick = true) :
    coreEdge e s = .next s.roundStep := by
  simp [coreEdge, hr, hb, ht]

theorem coreEdge_of_wait {e : Edge} {s : State} (hr : e.rst = false) (hb : s.BUSY = true) (ht : e.tick = false) :
    coreEdge e s = .next s := by
  simp [coreEdge, hr, hb, ht]

/-! ### The same, of a step whose edge is written out -/

section
variable {s : State} (es : List Edge)

theorem step_of_command (c : Command) (tick : Bool) (hb : s.BUSY = false) :
    step { s with inputs := ⟨false, some c, tick⟩ :: es } = acceptCommand c { s with inputs := es, rsp := none } :=
  coreEdge_of_command (e := ⟨false, some c, tick⟩) (s := { s with inputs := es, rsp := none }) rfl hb rfl

theorem step_of_idle (tick : Bool) (hb : s.BUSY = false) :
    step { s with inputs := ⟨false, none, tick⟩ :: es } = .next { s with inputs := es, rsp := none } :=
  coreEdge_of_idle (e := ⟨false, none, tick⟩) (s := { s with inputs := es, rsp := none }) rfl hb rfl

theorem step_of_tick (c : Option Command) (hb : s.BUSY = true) :
    step { s with inputs := ⟨false, c, true⟩ :: es } = .next ({ s with inputs := es, rsp := none }).roundStep :=
  coreEdge_of_tick (e := ⟨false, c, true⟩) (s := { s with inputs := es, rsp := none }) rfl hb rfl

theorem step_of_wait (c : Option Command) (hb : s.BUSY = true) :
    step { s with inputs := ⟨false, c, false⟩ :: es } = .next { s with inputs := es, rsp := none } :=
  coreEdge_of_wait (e := ⟨false, c, false⟩) (s := { s with inputs := es, rsp := none }) rfl hb rfl

end

/-! ### The obligations on one edge and on runs -/

theorem acceptCommand_answers (c : Command) (s : State) : ∃ t, acceptCommand c s = .next t := by
  cases hd : decode c with
  | ok i => rw [acceptCommand_of_legal s hd]; exact exec_answers i s
  | error w => exact ⟨_, acceptCommand_of_illegal s hd⟩

/-- No edge stops the core (R11, R151). -/
theorem coreEdge_answers (e : Edge) (s : State) : ∃ t, coreEdge e s = .next t := by
  cases hr : e.rst with
  | true => exact ⟨_, coreEdge_of_reset s hr⟩
  | false =>
    cases hb : s.BUSY with
    | true =>
      cases ht : e.tick with
      | true => exact ⟨_, coreEdge_of_tick hr hb ht⟩
      | false => exact ⟨_, coreEdge_of_wait hr hb ht⟩
    | false =>
      cases hc : e.command with
      | none => exact ⟨_, coreEdge_of_idle hr hb hc⟩
      | some c => rw [coreEdge_of_command hr hb hc]; exact acceptCommand_answers c s

theorem step_answers (s : State) : ∃ t, step s = .next t := coreEdge_answers s.portIn s.passEdge

/-- Settles O50, by induction on the number of steps: each one answers. -/
theorem everyRunGoesOn : Obligations.EveryRunGoesOn := by
  intro n
  induction n with
  | zero => exact fun s => ⟨s, run_zero s⟩
  | succ n ih =>
    intro s
    obtain ⟨t, ht⟩ := step_answers s
    obtain ⟨u, hu⟩ := ih t
    exact ⟨u, (run_succ n ht).trans hu⟩

/-- Settles O7: the edge is one at which a ready core is presented a legal command. -/
theorem stepRunsTheDecodedCommand : Obligations.StepRunsTheDecodedCommand :=
  fun _ c _ tick es hb hd => (step_of_command es c tick hb).trans (acceptCommand_of_legal _ hd)

/-- Settles O9: at none of these kinds of edge is a command read. -/
theorem nothingIsAcceptedWhileBusy : Obligations.NothingIsAcceptedWhileBusy := by
  refine ⟨fun s c tick es hb => ⟨?_, step_of_wait es c hb, step_of_tick es c hb⟩,
    fun s tick es hb => step_of_idle es tick hb⟩
  cases tick with
  | true => rw [step_of_tick es c hb, step_of_tick es none hb]
  | false => rw [step_of_wait es c hb, step_of_wait es none hb]

end Sys2Proof.Machine
end

section
/-! What an instruction reads: its effect on the state is determined by `R`, `S`, `KN` and the valid entries of the
key store. From that, that the invalid entries are unobservable. -/

namespace Sys2Proof.Machine

/-! ### The effect of an instruction -/

/-- The five things an instruction can do to a state, as `exec_cases` lists them. -/
inductive Effect where
  | raise (st : Status)
  | answer (v : Word)
  | clear
  | push (v : Word)
  | accept (dir : Dir) (p : Word)

/-- The state after an effect. -/
def Effect.apply (f : Effect) (s : State) : State :=
  match f with
  | .raise st => s.raise st
  | .answer v => s.answerBlock v
  | .clear => s.dropKeys.respond .ok 0x0000
  | .push v => (s.appendKey v).respond .ok (countData (s.KN + 1))
  | .accept dir p => s.accept dir p

/-- Two states that agree in all an instruction may read: `R`, `S`, `KN` and the valid key entries (R15). -/
structure SameOperands (s s' : State) : Prop where
  cfg : s'.cfg = s.cfg
  S : s'.S = s.S
  KN : s'.KN = s.KN
  keys : ∀ j, j < s.KN → s'.readKey j = s.readKey j

/-- Two outcomes, of `s` and of `s'`, that are next states after one and the same effect. -/
def SameEffect (s s' : State) (o o' : Host.Outcome State Fault Refusal) : Prop :=
  ∃ a : Effect, o = .next (a.apply s) ∧ o' = .next (a.apply s')

section
variable {s s' : State} (h : SameOperands s s')
include h

theorem withKey_sameEffect (idx : Nat) (f : Word → Word → Word) :
    SameEffect s s' (.next (s.withKey idx (f s.S))) (.next (s'.withKey idx (f s'.S))) := by
  rcases Nat.lt_or_ge idx s.KN with hv | hi
  · refine ⟨.answer (f s.S (s.readKey idx)), congrArg _ (State.withKey_of_valid _ hv), ?_⟩
    rw [State.withKey_of_valid _ (h.KN ▸ hv), h.S, h.keys idx hv, Effect.apply]
  · exact ⟨.raise .keyIndex, congrArg _ (State.withKey_of_invalid _ hi),
      congrArg _ (State.withKey_of_invalid _ (h.KN ▸ hi))⟩

theorem withKeyPair_sameEffect (idx : Nat) (f : Word → Word → Word → Word) :
    SameEffect s s' (.next (s.withKeyPair idx (f s.S))) (.next (s'.withKeyPair idx (f s'.S))) := by
  rcases Nat.lt_or_ge (idx + 1) s.KN with hv | hi
  · refine ⟨.answer (f s.S (s.readKey idx) (s.readKey (idx + 1))), congrArg _ (State.withKeyPair_of_valid _ hv), ?_⟩
    rw [State.withKeyPair_of_valid _ (h.KN ▸ hv), h.S, h.keys idx (by omega), h.keys (idx + 1) hv, Effect.apply]
  · exact ⟨.raise .keyIndex, congrArg _ (State.withKeyPair_of_invalid _ hi),
      congrArg _ (State.withKeyPair_of_invalid _ (h.KN ▸ hi))⟩

theorem accept_sameEffect (dir : Dir) (p : Word) :
    SameEffect s s' (.next (s.whenKeysComplete (State.accept dir p)))
      (.next (s'.whenKeysComplete (State.accept dir p))) := by
  rcases s.whenKeysComplete_cases (State.accept dir p) with ⟨h0, hs⟩ | ⟨h0, hk, hs⟩ | ⟨hk, hs⟩
  · exact ⟨.raise .missingKey, congrArg _ hs, congrArg _ (State.whenKeysComplete_of_empty _ (h.KN ▸ h0))⟩
  · exact ⟨.raise .insufficientKey, congrArg _ hs,
      congrArg _ (State.whenKeysComplete_of_few _ (h.KN ▸ h0) (h.KN ▸ h.cfg ▸ hk))⟩
  · exact ⟨.accept dir p, congrArg _ hs, congrArg _ (State.whenKeysComplete_of_full _ (h.KN ▸ h.cfg ▸ hk))⟩

theorem kpush_sameEffect (v : Word) : SameEffect s s' (exec (.kpush v) s) (exec (.kpush v) s') := by
  rcases Decidable.em (s.KN = s.cfg.keyCount) with hfull | hroom
  · exact ⟨.raise .keyFull, exec_kpush_of_full v hfull, exec_kpush_of_full v (h.KN ▸ h.cfg ▸ hfull)⟩
  · exact ⟨.push v, exec_kpush_of_room v hroom, exec_kpush_of_room v (h.KN ▸ h.cfg ▸ hroom)⟩

/-- An instruction has the same effect on two states that agree in all it may read. -/
theorem exec_sameEffect (i : Instr) : SameEffect s s' (exec i s) (exec i s') := by
  cases i with
  | lds imm => exact ⟨.answer imm, rfl, rfl⟩
  | rds => exact ⟨.answer s.S, rfl, by rw [← h.S]; rfl⟩
  | kclr => exact ⟨.clear, rfl, rfl⟩
  | kpush imm => exact kpush_sameEffect h imm
  | mix idx => exact withKey_sameEffect h idx mix
  | mixi imm => exact ⟨.answer (mix s.S imm), rfl, by rw [← h.S]; rfl⟩
  | sub => exact ⟨.answer (subLayer s.S), rfl, by rw [← h.S]; rfl⟩
  | isub => exact ⟨.answer (invSubLayer s.S), rfl, by rw [← h.S]; rfl⟩
  | perm => exact ⟨.answer (permLayer s.S), rfl, by rw [← h.S]; rfl⟩
  | rnd idx => exact withKey_sameEffect h idx fullRound
  | irnd idx => exact withKey_sameEffect h idx invFullRound
  | lrnd idx => exact withKeyPair_sameEffect h idx lastRound
  | ilrnd idx => exact withKeyPair_sameEffect h idx invLastRound
  | enc imm => exact accept_sameEffect h .enc imm
  | dec imm => exact accept_sameEffect h .dec imm

end

/-! ### Stores that agree on the valid entries -/

/-- Two stores, equally long, with the same entries below `n`. -/
def AgreeBelow (n : Nat) (keys keys' : List Word) : Prop :=
  keys'.length = keys.length ∧ ∀ j, j < n → keyAt keys' j = keyAt keys j

/-- Two outcomes that differ at most in invalid entries of the key store (R15). -/
def SameButInvalidKeys (o o' : Host.Outcome State Fault Refusal) : Prop :=
  ∃ t keys, o = .next t ∧ o' = .next { t with K := keys } ∧ AgreeBelow t.KN t.K keys

theorem AgreeBelow.sameOperands {s : State} {keys : List Word} (h : AgreeBelow s.KN s.K keys) :
    SameOperands s { s with K := keys } :=
  ⟨rfl, rfl, rfl, h.2⟩

/-- The new entry is the same in both stores, so they agree on one entry more. -/
theorem AgreeBelow.set {n : Nat} {keys keys' : List Word} (h : AgreeBelow n keys keys') (v : Word) :
    AgreeBelow (n + 1) (keys.set n v) (keys'.set n v) := by
  obtain ⟨hlen, hkeys⟩ := h
  refine ⟨by simpa using hlen, fun j hj => ?_⟩
  rcases Nat.lt_succ_iff_lt_or_eq.mp hj with hlt | rfl
  · simpa [keyAt, List.getElem?_set_ne hlt.ne'] using hkeys j hlt
  · have hrange : j < keys'.length ↔ j < keys.length := by rw [hlen]
    by_cases hin : j < keys.length
    · simp [keyAt, hin, hrange.mpr hin]
    · simp [keyAt, hin, mt hrange.mp hin]

/-- Every effect keeps the agreement. -/
theorem Effect.apply_agree {s : State} {keys : List Word} (h : AgreeBelow s.KN s.K keys) (a : Effect) :
    ∃ keys', a.apply { s with K := keys } = { a.apply s with K := keys' } ∧
      AgreeBelow (a.apply s).KN (a.apply s).K keys' := by
  cases a with
  | raise st => exact ⟨keys, rfl, h⟩
  | answer v => exact ⟨keys, rfl, h⟩
  | clear => exact ⟨keys, rfl, h.1, fun j hj => absurd hj (Nat.not_lt_zero j)⟩
  | push v => exact ⟨keys.set s.KN v, rfl, h.set v⟩
  | accept dir p => exact ⟨keys, rfl, h⟩

/-- A round of an operation reads entries `0..R` only (R115, R116). -/
theorem roundValue_congr {R : Nat} {keys keys' : List Word} (hR : 1 ≤ R)
    (h : ∀ j, j < R + 1 → keyAt keys' j = keyAt keys j) (dir : Dir) (r : Nat) (v : Word) :
    roundValue dir R keys' r v = roundValue dir R keys r v := by
  have hlast := h R (by omega)
  have hprev := h (R - 1) (by omega)
  cases dir with
  | enc =>
    by_cases hr : r < R - 1
    · simp [roundValue, encryptRound, hr, h r (by omega)]
    · simp [roundValue, encryptRound, hr, hlast, hprev]
  | dec =>
    by_cases hr : r = 0
    · simp [roundValue, decryptRound, hr, hlast, hprev]
    · simp [roundValue, decryptRound, hr, h (R - 1 - r) (by omega)]

/-! ### One edge, one step -/

/-- An operation runs over a full store (R120), so all it reads is valid. -/
theorem roundStep_agree {s : State} {keys : List Word} (hs : s.wf) (hb : s.BUSY = true)
    (h : AgreeBelow s.KN s.K keys) :
    State.roundStep { s with K := keys } = { s.roundStep with K := keys } ∧
      AgreeBelow s.roundStep.KN s.roundStep.K keys := by
  obtain ⟨hcfg, -, ⟨-, -, hbusy⟩, -⟩ := hs
  have hfull : s.KN = s.cfg.rounds + 1 := (hbusy hb).1
  have hblock : State.nextBlock { s with K := keys } = s.nextBlock :=
    roundValue_congr hcfg.1 (fun j hj => h.2 j (hfull ▸ hj)) s.DIR s.RC s.S
  by_cases hlast : s.RC = s.cfg.rounds - 1
  · rw [State.roundStep_last hlast, State.roundStep_last (s := { s with K := keys }) hlast, hblock]
    exact ⟨rfl, h⟩
  · rw [State.roundStep_middle hlast, State.roundStep_middle (s := { s with K := keys }) hlast, hblock]
    exact ⟨rfl, h⟩

theorem acceptCommand_agree {s : State} {keys : List Word} (h : AgreeBelow s.KN s.K keys) (c : Command) :
    SameButInvalidKeys (acceptCommand c s) (acceptCommand c { s with K := keys }) := by
  cases hd : decode c with
  | error w =>
    rw [acceptCommand_of_illegal _ hd, acceptCommand_of_illegal _ hd]
    exact ⟨_, keys, rfl, rfl, h⟩
  | ok i =>
    rw [acceptCommand_of_legal _ hd, acceptCommand_of_legal _ hd]
    obtain ⟨a, ha, ha'⟩ := exec_sameEffect h.sameOperands i
    obtain ⟨keys', hkeys', hagree⟩ := a.apply_agree h
    exact ⟨_, keys', ha, ha'.trans (congrArg _ hkeys'), hagree⟩

theorem coreEdge_agree {s : State} {keys : List Word} (hs : s.wf) (h : AgreeBelow s.KN s.K keys) (e : Edge) :
    SameButInvalidKeys (coreEdge e s) (coreEdge e { s with K := keys }) := by
  obtain ⟨t, ht⟩ := coreEdge_answers e s
  rcases coreEdge_cases ht with ⟨hr, rfl⟩ | ⟨hr, hb, htick, rfl⟩ | ⟨hr, hb, htick, rfl⟩ | ⟨hr, hb, hc, rfl⟩ |
    ⟨c, w, hr, hb, hc, -⟩ | ⟨c, i, hr, hb, hc, -⟩
  case inl => exact ⟨_, s.resetEdge.K, ht, coreEdge_of_reset _ hr, rfl, fun _ _ => rfl⟩
  case inr.inl =>
    obtain ⟨hstep, hagree⟩ := roundStep_agree hs hb h
    exact ⟨_, keys, ht, (coreEdge_of_tick (s := { s with K := keys }) hr hb htick).trans (congrArg _ hstep), hagree⟩
  case inr.inr.inl => exact ⟨_, keys, ht, coreEdge_of_wait (s := { t with K := keys }) hr hb htick, h⟩
  case inr.inr.inr.inl => exact ⟨_, keys, ht, coreEdge_of_idle (s := { t with K := keys }) hr hb hc, h⟩
  all_goals
    rw [coreEdge_of_command hr hb hc, coreEdge_of_command (s := { s with K := keys }) hr hb hc]
    exact acceptCommand_agree h c

/-- Settles O53: each kind of edge keeps the agreement of the two stores, for an instruction because its effect is
determined by the valid entries, for a round step because the store is then full. -/
theorem invalidKeyEntriesAreUnobservable : Obligations.InvalidKeyEntriesAreUnobservable := by
  intro s keys hs hlen hkeys
  have hagree : AgreeBelow s.KN s.K keys := ⟨hlen, hkeys⟩
  obtain ⟨t, keys', ht, ht', hlen', hkeys'⟩ := coreEdge_agree (State.wf_passEdge hs) hagree s.portIn
  exact ⟨t, keys', ht, ht', hlen', hkeys'⟩

end Sys2Proof.Machine
end

section
/-! The ports and the reset values; then when a step answers, and what the commands and the steps leave unchanged. -/

namespace Sys2Proof.Machine

/-! ### The response port -/

/-- Rule R10: `rsp_valid` says whether a response stands on the port. -/
@[simp] theorem State.rspValid_iff (s : State) : s.rspValid = true ↔ ∃ r, s.rsp = some r := Option.isSome_iff_exists

theorem State.rspStatus_of_rsp {s : State} {r : Response} (h : s.rsp = some r) :
    s.rspStatus = some r.status.code := by
  rw [State.rspStatus, h, Option.map_some]

theorem State.rspRdata_of_rsp {s : State} {r : Response} (h : s.rsp = some r) : s.rspRdata = some r.rdata := by
  rw [State.rspRdata, h, Option.map_some]

/-- Settles O12: the two data ports carry the response that `rsp_valid` announces. -/
theorem outputPorts : Obligations.OutputPorts := by
  refine ⟨fun s => ⟨rfl, rfl, fun hvalid => ?_, fun ⟨r, hr, _, _⟩ => s.rspValid_iff.mpr ⟨r, hr⟩⟩, rfl⟩
  obtain ⟨r, hr⟩ := s.rspValid_iff.mp hvalid
  exact ⟨r, hr, State.rspStatus_of_rsp hr, State.rspRdata_of_rsp hr⟩

/-! ### Reset -/

/-- After reset no key entry is valid (R15, R24). -/
theorem State.keyValid_resetOf (c : Config) (i : Nat) : (State.resetOf c).keyValid i = false :=
  Bool.eq_false_iff.mpr fun h => Nat.not_lt_zero i ((State.keyValid_iff _ i).mp h)

/-- Settles O11: the fields of `State.resetOf`, and that an empty count makes every entry invalid. -/
theorem resetValues : Obligations.ResetValues :=
  fun c => ⟨rfl, rfl, State.keyValid_resetOf c, rfl, rfl, rfl, rfl, rfl⟩

/-! ### When a step answers -/

/-- The driver commands that pass their checks are those `startsDriver` names (R121). -/
theorem startsDriver_iff {c : Command} {i : Instr} (s : State) (hd : decode c = .ok i) :
    s.startsDriver c = true ↔ (∃ dp, driver? i = some dp) ∧ s.cfg.keyCount ≤ s.KN := by
  simp [State.startsDriver, hd, Option.isSome_iff_exists]

theorem startsDriver_of_illegal {c : Command} {w : Illegal} (s : State) (hd : decode c = .error w) :
    s.startsDriver c = false := by
  rw [State.startsDriver, hd]

/-- An instruction answers at once unless it is a driver command that passes its checks (R11, R121). -/
theorem exec_rspValid_iff {i : Instr} {s t : State} (h : exec i s = .next t) :
    t.rspValid = true ↔ ¬ ((∃ dp, driver? i = some dp) ∧ s.cfg.keyCount ≤ s.KN) := by
  cases hdriver : driver? i with
  | none =>
    have hanswers : t.rspValid = true := by
      rcases exec_cases h with ⟨st, -, rfl⟩ | ⟨v, -, rfl⟩ | ⟨-, rfl⟩ | ⟨v, -, -, rfl⟩ | ⟨dir, p, hd, -, -⟩
      case inr.inr.inr.inr => exact absurd (hdriver.symm.trans hd) nofun
      all_goals rfl
    simp [hanswers]
  | some dp =>
    obtain ⟨dir, p⟩ := dp
    cases (exec_of_driver s hdriver).symm.trans h
    rcases s.whenKeysComplete_cases (State.accept dir p) with ⟨h0, hs⟩ | ⟨-, hk, hs⟩ | ⟨hk, hs⟩
    · simp [hs, h0]
    · simpa [hs] using hk
    · simpa [hs] using hk

theorem acceptCommand_rspValid_iff {c : Command} {s t : State} (h : acceptCommand c s = .next t) :
    t.rspValid = true ↔ s.startsDriver c = false := by
  cases hd : decode c with
  | error w =>
    cases (acceptCommand_of_illegal s hd).symm.trans h
    exact iff_of_true rfl (startsDriver_of_illegal s hd)
  | ok i =>
    have hexec : exec i s = .next t := (acceptCommand_of_legal s hd).symm.trans h
    rw [exec_rspValid_iff hexec, ← startsDriver_iff s hd, Bool.not_eq_true]

/-- A round step over an empty port answers exactly at the last round (R118). -/
theorem State.roundStep_rspValid_iff {s : State} (hs : s.rsp = none) :
    s.roundStep.rspValid = true ↔ s.RC = s.cfg.rounds - 1 := by
  by_cases hlast : s.RC = s.cfg.rounds - 1
  · simp [State.roundStep_last hlast, hlast]
  · simp [State.roundStep_middle hlast, hlast, hs]

theorem State.portIn_of_inputs {s : State} {e : Edge} {es : List Edge} (h : s.inputs = e :: es) : s.portIn = e := by
  rw [State.portIn, h, List.headD_cons]

/-- Rule R11, of an edge that finds the response port empty. -/
theorem coreEdge_rspValid_iff {e : Edge} {s t : State} (hs : s.rsp = none) (h : coreEdge e s = .next t) :
    t.rspValid = true ↔
      e.rst = false ∧
      ((s.BUSY = false ∧ ∃ c, e.command = some c ∧ s.startsDriver c = false) ∨
        (s.BUSY = true ∧ e.tick = true ∧ s.RC = s.cfg.rounds - 1)) := by
  rcases coreEdge_cases h with ⟨hr, rfl⟩ | ⟨hr, hb, ht, rfl⟩ | ⟨hr, hb, ht, rfl⟩ | ⟨hr, hb, hc, rfl⟩ |
    ⟨c, w, hr, hb, hc, hd, -⟩ | ⟨c, i, hr, hb, hc, hd, -⟩
  case inl => simp [hr]
  case inr.inl => rw [State.roundStep_rspValid_iff hs]; simp [hr, hb, ht]
  case inr.inr.inl => simp [hs, hb, ht]
  case inr.inr.inr.inl => simp [hs, hb, hc]
  all_goals
    rw [acceptCommand_rspValid_iff ((coreEdge_of_command hr hb hc).symm.trans h)]
    simp [hr, hb, hc]

/-- Settles O43: a step is an edge that finds the response of the edge before it gone. -/
theorem oneResponseForEachCommand : Obligations.OneResponseForEachCommand := by
  intro s t e es _ hinputs hstep
  rw [step_eq, State.portIn_of_inputs hinputs] at hstep
  exact coreEdge_rspValid_iff (s := s.passEdge) rfl hstep

/-! ### Frames of the commands -/

/-- A command that is no store command and no driver command changes at most `S` and the response. -/
theorem exec_blockCommand {i : Instr} {s t : State} (h : exec i s = .next t) (hclr : i ≠ .kclr)
    (hpush : ∀ v, i ≠ .kpush v) (hdriver : driver? i = none) : ∃ v r, t = { s with S := v, rsp := r } := by
  rcases exec_cases h with ⟨st, -, rfl⟩ | ⟨v, -, rfl⟩ | ⟨hi, -⟩ | ⟨v, hi, -, -⟩ | ⟨dir, p, hd, -, -⟩
  · exact ⟨s.S, _, rfl⟩
  · exact ⟨v, _, rfl⟩
  · exact absurd hi hclr
  · exact absurd hi (hpush v)
  · exact absurd (hdriver.symm.trans hd) nofun

/-- Settles O45: the eleven commands are neither store nor driver commands, and `RDS` answers without writing. -/
theorem frameOfBlockCommands : Obligations.FrameOfBlockCommands := by
  intro i s t h hi
  obtain ⟨hclr, hpush, hdriver⟩ : i ≠ .kclr ∧ (∀ v, i ≠ .kpush v) ∧ driver? i = none := by
    rcases hi with ⟨_, rfl⟩ | rfl | ⟨_, rfl⟩ | ⟨_, rfl⟩ | rfl | rfl | rfl |
      ⟨_, rfl⟩ | ⟨_, rfl⟩ | ⟨_, rfl⟩ | ⟨_, rfl⟩ <;> exact ⟨nofun, nofun, rfl⟩
  have hrds : i = .rds → t.S = s.S := by rintro rfl; cases h; rfl
  obtain ⟨v, r, rfl⟩ := exec_blockCommand h hclr hpush hdriver
  exact ⟨rfl, rfl, fun _ => rfl, rfl, rfl, rfl, rfl, rfl, hrds⟩

/-- Rule R32: appending a key leaves every entry but the one at `KN` as it was. -/
theorem State.readKey_appendKey_of_ne {s : State} (v : Word) {j : Nat} (h : j ≠ s.KN) :
    (s.appendKey v).readKey j = s.readKey j := by
  simp [State.readKey, List.getElem?_set_ne h.symm]

/-- Settles O46: `KCLR` drops the count alone, `KPUSH` is refused or appends one key. -/
theorem frameOfStoreCommands : Obligations.FrameOfStoreCommands := by
  rintro i s t h (rfl | ⟨v, rfl⟩)
  · cases h
    exact ⟨rfl, rfl, rfl, rfl, rfl, rfl, fun _ _ => rfl, fun _ _ => rfl⟩
  · rcases Decidable.em (s.KN = s.cfg.keyCount) with hfull | hroom
    · cases (exec_kpush_of_full v hfull).symm.trans h
      exact ⟨rfl, rfl, rfl, rfl, rfl, rfl, fun _ _ => rfl, nofun⟩
    · cases (exec_kpush_of_room v hroom).symm.trans h
      exact ⟨rfl, rfl, rfl, rfl, rfl, rfl, fun _ hj => State.readKey_appendKey_of_ne v hj, nofun⟩

/-! ### The key store along a step -/

@[simp] theorem State.roundStep_K (s : State) : s.roundStep.K = s.K := by
  by_cases hlast : s.RC = s.cfg.rounds - 1
  · rw [State.roundStep_last hlast]
  · rw [State.roundStep_middle hlast]

@[simp] theorem State.roundStep_KN (s : State) : s.roundStep.KN = s.KN := by
  by_cases hlast : s.RC = s.cfg.rounds - 1
  · rw [State.roundStep_last hlast]
  · rw [State.roundStep_middle hlast]

/-- No instruction changes a valid entry (R32), and only `KCLR` and `KPUSH` change the store or its count. -/
theorem exec_keys {i : Instr} {s t : State} (h : exec i s = .next t) :
    (∀ j, j < s.KN → t.readKey j = s.readKey j) ∧
      (t.K ≠ s.K ∨ t.KN ≠ s.KN → i = .kclr ∨ ∃ v, i = .kpush v) := by
  rcases exec_cases h with ⟨st, -, rfl⟩ | ⟨v, -, rfl⟩ | ⟨hi, rfl⟩ | ⟨v, hi, -, rfl⟩ | ⟨dir, p, -, -, rfl⟩
  case inr.inr.inl => exact ⟨fun _ _ => rfl, fun _ => .inl hi⟩
  case inr.inr.inr.inl => exact ⟨fun _ hj => State.readKey_appendKey_of_ne v hj.ne, fun _ => .inr ⟨v, hi⟩⟩
  all_goals exact ⟨fun _ _ => rfl, by simp⟩

/-- The same of an edge without reset: a round step, an idle edge and an illegal word keep the store. -/
theorem coreEdge_keys {e : Edge} {s t : State} (h : coreEdge e s = .next t) (hrst : e.rst = false) :
    (∀ j, j < s.KN → t.readKey j = s.readKey j) ∧
      (t.K ≠ s.K ∨ t.KN ≠ s.KN →
        s.BUSY = false ∧ ∃ c, e.command = some c ∧ (decode c = .ok .kclr ∨ ∃ v, decode c = .ok (.kpush v))) := by
  rcases coreEdge_cases h with ⟨hr, -⟩ | ⟨-, -, -, rfl⟩ | ⟨-, -, -, rfl⟩ | ⟨-, -, -, rfl⟩ |
    ⟨c, w, -, -, -, -, rfl⟩ | ⟨c, i, -, hb, hc, hd, hexec⟩
  case inl => exact absurd (hr.symm.trans hrst) nofun
  case inr.inl => exact ⟨fun j _ => by rw [State.readKey, s.roundStep_K]; rfl, by simp⟩
  case inr.inr.inr.inr.inr =>
    obtain ⟨hread, hstore⟩ := exec_keys hexec
    refine ⟨hread, fun hchange => ⟨hb, c, hc, ?_⟩⟩
    rcases hstore hchange with rfl | ⟨v, rfl⟩
    · exact .inl hd
    · exact .inr ⟨v, hd⟩
  all_goals exact ⟨fun _ _ => rfl, by simp⟩

/-- Settles O52, from the same facts about an edge. -/
theorem keysChangeOnlyByTheirCommands : Obligations.KeysChangeOnlyByTheirCommands := by
  intro s t e es hinputs hstep hrst
  rw [step_eq, State.portIn_of_inputs hinputs] at hstep
  exact coreEdge_keys (s := s.passEdge) hstep hrst

/-! ### Reading a key back -/

theorem mix_zero_left (k : Word) : mix 0 k = k := BitVec.zero_xor

/-- Settles O54: mixing a key into a block of 0 gives the key. -/
theorem aStoredKeyCanBeReadBack : Obligations.AStoredKeyCanBeReadBack := by
  intro i s hi
  have hmix : exec (.mix i) (s.answerBlock 0) = .next ((s.answerBlock 0).answerBlock (s.readKey i)) := by
    rw [exec, execMix, State.withKey_of_valid (s := s.answerBlock 0) _ hi, State.answerBlock_S, mix_zero_left]
    rfl
  calc execAll [.lds 0x0000, .mix i] s
    _ = andThen (exec (.mix i) (s.answerBlock 0)) (execAll []) := rfl
    _ = .next ((s.answerBlock 0).answerBlock (s.readKey i)) := by rw [hmix]; rfl

end Sys2Proof.Machine
end

section
/-! The sequencer: the value it computes, and the edges it takes from the acceptance of a driver command to its
answer. -/

namespace Sys2Proof.Machine

/-! ### The value after the rounds (R119) -/

theorem valueAfter_enc (R : Nat) (keys : List Word) (p : Word) {j : Nat} (hj : j ≤ R - 1) :
    valueAfter .enc R keys p j = encryptRounds keys j p := by
  induction j with
  | zero => rfl
  | succ j ih =>
    rw [valueAfter, ih (by omega), roundValue, encryptRound, if_pos (by omega), encryptRounds]

/-- What is still to be done of a decryption after its first step and `j` more. -/
theorem decryptRounds_valueAfter_dec (R : Nat) (keys : List Word) (c : Word) {j : Nat} (hj : j ≤ R - 1) :
    decryptRounds keys (R - 1 - j) (valueAfter .dec R keys c (j + 1)) = decrypt R keys c := by
  induction j with
  | zero => rfl
  | succ j ih =>
    have hround : valueAfter .dec R keys c (j + 2) =
        invFullRound (valueAfter .dec R keys c (j + 1)) (keyAt keys (R - 1 - (j + 1))) := by
      rw [valueAfter, roundValue, decryptRound, if_neg (Nat.succ_ne_zero j)]
    have hleft : R - 1 - j = R - 1 - (j + 1) + 1 := by omega
    rw [hround, ← ih (by omega), hleft, decryptRounds]

/-- After `R` rounds the value is that of the driver (R119). -/
theorem valueAfter_rounds (dir : Dir) {R : Nat} (keys : List Word) (p : Word) (hR : 1 ≤ R) :
    valueAfter dir R keys p R = transform dir R keys p := by
  obtain ⟨n, rfl⟩ : ∃ n, R = n + 1 := ⟨R - 1, by omega⟩
  cases dir with
  | enc => rw [valueAfter, valueAfter_enc (n + 1) keys p n.le_refl, roundValue, encryptRound, if_neg (by omega)]; rfl
  | dec => simpa [decryptRounds, transform] using decryptRounds_valueAfter_dec (n + 1) keys p (j := n) n.le_refl

/-! ### Round steps of one operation -/

/-- The first of `n + 1` round steps may be taken apart. -/
theorem roundSteps_succ' (n : Nat) (s : State) : roundSteps (n + 1) s = roundSteps n s.roundStep := by
  induction n with
  | zero => rfl
  | succ n ih => rw [roundSteps, ih, ← roundSteps]

/-- Rules R115, R116: after `j < R` round steps `S` is the value after `j` rounds and the operation still runs. -/
theorem roundSteps_accept (dir : Dir) (p : Word) (s : State) {j : Nat} (hj : j < s.cfg.rounds) :
    roundSteps j (s.accept dir p) =
      { s.accept dir p with S := valueAfter dir s.cfg.rounds s.K p j, RC := j } := by
  induction j with
  | zero => rfl
  | succ j ih =>
    have hmiddle : j ≠ s.cfg.rounds - 1 := by omega
    rw [roundSteps, ih (by omega)]
    exact State.roundStep_middle
      (s := { s.accept dir p with S := valueAfter dir s.cfg.rounds s.K p j, RC := j }) hmiddle

/-- Rule R118: the last of the `R` round steps of an operation that a ready core accepted leaves what the atomic
command leaves. -/
theorem roundStep_accept_last (dir : Dir) (p : Word) {s : State} (hR : 1 ≤ s.cfg.rounds) (hb : s.BUSY = false)
    (hrc : s.RC = 0) : (roundSteps (s.cfg.rounds - 1) (s.accept dir p)).roundStep = s.driveAtOnce dir p := by
  have hblock : State.nextBlock { s.accept dir p with
        S := valueAfter dir s.cfg.rounds s.K p (s.cfg.rounds - 1), RC := s.cfg.rounds - 1 } =
      transform dir s.cfg.rounds s.K p :=
    (congrArg (valueAfter dir s.cfg.rounds s.K p) (Nat.sub_add_cancel hR)).trans (valueAfter_rounds dir s.K p hR)
  rw [roundSteps_accept dir p s (by omega), State.roundStep_last rfl, hblock]
  simp only [State.driveAtOnce, State.answerBlock, State.respond, State.writeBlock, State.accept, hb, hrc]

/-! ### Runs with their responses -/

/-- `n` steps from `s` end in `t`, and the responses they present are `rs`. -/
def RunsTo (n : Nat) (s t : State) (rs : List Response) : Prop := run n s = .next t ∧ responses n s = rs

theorem RunsTo.refl (s : State) : RunsTo 0 s s [] := ⟨rfl, rfl⟩

theorem RunsTo.of_step {s t : State} (h : step s = .next t) : RunsTo 1 s t t.rsp.toList :=
  ⟨run_succ 0 h, (responses_succ 0 h).trans (List.append_nil _)⟩

theorem RunsTo.trans {m n : Nat} {s t u : State} {rs rs' : List Response} (h : RunsTo m s t rs)
    (h' : RunsTo n t u rs') : RunsTo (m + n) s u (rs ++ rs') :=
  ⟨(run_add m n h.1).trans h'.1, by rw [responses_add m n h.1, h.2, h'.2]⟩

/-! ### Round steps at the edges of a list -/

theorem tickCount_cons (e : Edge) (es : List Edge) : tickCount (e :: es) = tickCount es + e.tick.toNat := by
  cases ht : e.tick <;> simp [tickCount, ht]

theorem noReset_cons {e : Edge} {es : List Edge} : noReset (e :: es) = true ↔ e.rst = false ∧ noReset es = true := by
  simp [noReset]

/-- A round step reads neither the inputs to come nor the response port, which is empty between round steps. -/
theorem State.roundStep_inputs_comm {s : State} (es : List Edge) (hrsp : s.rsp = none) :
    State.roundStep { s with inputs := es, rsp := none } = { s.roundStep with inputs := es } := by
  by_cases hlast : s.RC = s.cfg.rounds - 1
  · rw [State.roundStep_last hlast, State.roundStep_last (s := { s with inputs := es, rsp := none }) hlast]; rfl
  · rw [State.roundStep_middle hlast, State.roundStep_middle (s := { s with inputs := es, rsp := none }) hlast, hrsp]
    rfl

theorem runsTo_round {s : State} (c : Option Command) (es : List Edge) (hb : s.BUSY = true) (hrsp : s.rsp = none) :
    RunsTo 1 { s with inputs := ⟨false, c, true⟩ :: es } { s.roundStep with inputs := es } s.roundStep.rsp.toList :=
  RunsTo.of_step ((step_of_tick es c hb).trans (congrArg _ (State.roundStep_inputs_comm es hrsp)))

theorem runsTo_wait {s : State} (c : Option Command) (es : List Edge) (hb : s.BUSY = true) (hrsp : s.rsp = none) :
    RunsTo 1 { s with inputs := ⟨false, c, false⟩ :: es } { s with inputs := es } [] := by
  have hstep := step_of_wait es c hb
  rw [← hrsp] at hstep
  simpa [hrsp] using RunsTo.of_step hstep

/-- While an operation runs and its last round step is not reached, each edge at which the sequencer completes a round
step takes one, any other edge nothing, and nothing is answered (R11, R117). -/
theorem runsTo_roundSteps {s : State} {es : List Edge} (rest : List Edge) (hb : s.BUSY = true) (hrsp : s.rsp = none)
    (hes : noReset es = true) (hticks : s.RC + tickCount es < s.cfg.rounds) :
    RunsTo es.length { s with inputs := es ++ rest } { roundSteps (tickCount es) s with inputs := rest } [] := by
  induction es generalizing s with
  | nil => exact RunsTo.refl { s with inputs := rest }
  | cons e es ih =>
    obtain ⟨rst, c, tick⟩ := e
    obtain ⟨rfl, hes⟩ := noReset_cons.mp hes
    rw [tickCount_cons] at hticks
    rw [tickCount_cons, List.length_cons, Nat.add_comm es.length]
    cases tick with
    | false => exact (runsTo_wait c (es ++ rest) hb hrsp).trans (ih hb hrsp hes hticks)
    | true =>
      simp only [Bool.toNat_true] at hticks
      obtain ⟨hb', hrc', hrsp'⟩ : s.roundStep.BUSY = true ∧ s.roundStep.RC = s.RC + 1 ∧ s.roundStep.rsp = none := by
        rw [State.roundStep_middle (by omega)]; exact ⟨hb, rfl, hrsp⟩
      have hround := runsTo_round c (es ++ rest) hb hrsp
      rw [hrsp'] at hround
      rw [Bool.toNat_true, roundSteps_succ']
      exact hround.trans (ih hb' hrsp' hes (by rw [hrc', s.roundStep_cfg]; omega))

/-! ### From acceptance to the answer -/

/-- A ready core that is presented a driver command passing its checks computes it, whatever the host presents at the
edges `es` after it and whenever the sequencer completes the round steps (R119, R122). -/
theorem runsTo_driveAtOnce {s : State} {c : Command} {i : Instr} {dir : Dir} {p : Word} {es : List Edge}
    (tick : Bool) (last : Option Command) (rest : List Edge) (hs : s.wf) (hb : s.BUSY = false)
    (hfull : s.cfg.keyCount ≤ s.KN) (hd : decode c = .ok i) (hdriver : driver? i = some (dir, p))
    (hes : noReset es = true) (hticks : tickCount es = s.cfg.rounds - 1) :
    RunsTo (1 + es.length + 1) { s with inputs := ⟨false, some c, tick⟩ :: (es ++ ⟨false, last, true⟩ :: rest) }
      { s.driveAtOnce dir p with inputs := rest } [⟨.ok, transform dir s.cfg.rounds s.K p⟩] := by
  obtain ⟨⟨hR, -⟩, -, ⟨-, hidle, -⟩, -⟩ := hs
  have accepted : RunsTo 1 { s with inputs := ⟨false, some c, tick⟩ :: (es ++ ⟨false, last, true⟩ :: rest) }
      { s.accept dir p with inputs := es ++ ⟨false, last, true⟩ :: rest } [] := by
    refine RunsTo.of_step (t := { s.accept dir p with inputs := es ++ ⟨false, last, true⟩ :: rest }) ?_
    rw [step_of_command _ c tick hb, acceptCommand_of_legal _ hd, exec_of_driver _ hdriver]
    exact congrArg _ (State.whenKeysComplete_of_full _ hfull)
  have rounds := runsTo_roundSteps (s := s.accept dir p) (⟨false, last, true⟩ :: rest) rfl rfl hes
    (by simp only [State.accept_RC, State.accept_cfg]; omega)
  rw [hticks] at rounds
  have hrunning := roundSteps_accept dir p s (j := s.cfg.rounds - 1) (by omega)
  have answered := runsTo_round (s := roundSteps (s.cfg.rounds - 1) (s.accept dir p)) last rest
    (by rw [hrunning]; rfl) (by rw [hrunning]; rfl)
  rw [roundStep_accept_last dir p hR hb (hidle hb)] at answered
  exact (accepted.trans rounds).trans answered

/-- Settles O38: the last edge completes a round step, whatever the host presents at it. -/
theorem sequencerComputesTheDriver : Obligations.SequencerComputesTheDriver := by
  rintro dir p c i s tick es rest ⟨rst, last, tick'⟩ hs hb hfull hd hdriver hes rfl hticks rfl
  exact runsTo_driveAtOnce tick last rest hs hb hfull.ge hd hdriver hes hticks

end Sys2Proof.Machine
end

section
/-! The sequencer machine refines the machine with atomic commands: command by command, then along a program. -/

namespace Sys2Proof.Machine

/-! ### Commands that the accepting edge completes -/

/-- What an effect does depends on neither the inputs to come nor the response port, and it leaves a new response
port. -/
theorem Effect.apply_ports (a : Effect) (s : State) (es : List Edge) :
    a.apply { s with inputs := es, rsp := none } = { a.apply s with inputs := es } := by
  cases a <;> rfl

/-- Executing a command reads neither the inputs to come nor the response port. -/
theorem acceptCommand_ports {c : Command} {s t : State} (es : List Edge) (h : acceptCommand c s = .next t) :
    acceptCommand c { s with inputs := es, rsp := none } = .next { t with inputs := es } := by
  cases hd : decode c with
  | error w =>
    cases (acceptCommand_of_illegal s hd).symm.trans h
    exact acceptCommand_of_illegal _ hd
  | ok i =>
    rw [acceptCommand_of_legal _ hd] at h ⊢
    have hsame : SameOperands s { s with inputs := es, rsp := none } := ⟨rfl, rfl, rfl, fun _ _ => rfl⟩
    obtain ⟨a, ha, ha'⟩ := exec_sameEffect hsame i
    cases ha.symm.trans h
    exact ha'.trans (congrArg _ (a.apply_ports s es))

/-- A command that does not start an operation leaves the core ready. -/
theorem acceptCommand_ready {c : Command} {s t : State} (h : acceptCommand c s = .next t) (hb : s.BUSY = false)
    (hstart : s.startsDriver c = false) : t.BUSY = false := by
  cases hd : decode c with
  | error w => cases (acceptCommand_of_illegal s hd).symm.trans h; exact hb
  | ok i =>
    rw [acceptCommand_of_legal _ hd] at h
    rcases exec_cases h with ⟨st, -, rfl⟩ | ⟨v, -, rfl⟩ | ⟨-, rfl⟩ | ⟨v, -, -, rfl⟩ | ⟨dir, p, hdriver, hk, -⟩
    case inr.inr.inr.inr =>
      exact absurd ((startsDriver_iff s hd).mpr ⟨⟨_, hdriver⟩, hk⟩) (Bool.eq_false_iff.mp hstart)
    all_goals exact hb

/-! ### Commands of the atomic machine -/

theorem execAtomic_of_not_driver {i : Instr} (s : State) (h : driver? i = none) : execAtomic i s = exec i s := by
  rw [execAtomic, h]

theorem execAtomic_of_driver {i : Instr} {dir : Dir} {p : Word} (s : State) (h : driver? i = some (dir, p)) :
    execAtomic i s = .next (s.whenKeysComplete (State.driveAtOnce dir p)) := by
  rw [execAtomic, h]

theorem commandAtomic_of_legal {c : Command} {i : Instr} (s : State) (h : decode c = .ok i) :
    commandAtomic c s = execAtomic i s := by
  rw [commandAtomic, h]

/-- The two machines differ only on commands that start an operation. -/
theorem commandAtomic_of_not_starts {c : Command} {s : State} (h : s.startsDriver c = false) :
    commandAtomic c s = acceptCommand c s := by
  cases hd : decode c with
  | error w => rw [acceptCommand_of_illegal s hd, commandAtomic, hd]
  | ok i =>
    rw [commandAtomic_of_legal s hd, acceptCommand_of_legal s hd]
    cases hdriver : driver? i with
    | none => exact execAtomic_of_not_driver s hdriver
    | some dp =>
      rw [execAtomic_of_driver s hdriver, exec_of_driver s hdriver]
      have hfew : ¬ s.cfg.keyCount ≤ s.KN := fun hk =>
        Bool.eq_false_iff.mp h ((startsDriver_iff s hd).mpr ⟨⟨_, hdriver⟩, hk⟩)
      rcases s.whenKeysComplete_cases (State.driveAtOnce dp.1 dp.2) with ⟨h0, hs⟩ | ⟨h0, hk, hs⟩ | ⟨hk, -⟩
      · rw [hs, State.whenKeysComplete_of_empty _ h0]
      · rw [hs, State.whenKeysComplete_of_few _ h0 hk]
      · exact absurd hk hfew

theorem State.afterCommand_eq {c : Command} {s t : State} (h : commandAtomic c s = .next t) :
    s.afterCommand c = t := by
  rw [State.afterCommand, h]

theorem runAtomic_cons {c : Command} {cs : List Command} {s t u : State} {rs : List Response}
    (h : commandAtomic c s = .next t) (h' : runAtomic cs t = .next (u, rs)) :
    runAtomic (c :: cs) s = .next (u, t.rsp.toList ++ rs) := by
  simp only [runAtomic, h, h']

/-! ### One command on both machines -/

/-- The edges of one command in the host's schedule (R170). -/
def commandEdges (c : Command) (s : State) : List Edge :=
  presentEdge c :: if s.startsDriver c then List.replicate s.cfg.rounds idleEdge else []

theorem schedule_cons {c : Command} {s t : State} (cs : List Command) (h : commandAtomic c s = .next t) :
    schedule (c :: cs) s = commandEdges c s ++ schedule cs t := by
  rw [schedule, State.afterCommand_eq h, commandEdges, List.cons_append]

theorem noReset_replicate_idle (n : Nat) : noReset (List.replicate n idleEdge) = true := by
  simp [noReset, idleEdge]

theorem tickCount_replicate_idle (n : Nat) : tickCount (List.replicate n idleEdge) = n := by
  simp [tickCount, List.countP_replicate, idleEdge]

/-- `t` is what the atomic machine makes of `c` in `s`; it is ready for the next command, and the sequencer machine
reaches it over the edges of `c` with the same response. -/
def Refines (c : Command) (s t : State) : Prop :=
  commandAtomic c s = .next t ∧ t.wf ∧ t.BUSY = false ∧
    ∀ rest, RunsTo (commandEdges c s).length { s with inputs := commandEdges c s ++ rest }
      { t with inputs := rest } t.rsp.toList

theorem refines_of_not_starts {c : Command} {s : State} (hs : s.wf) (hb : s.BUSY = false)
    (hstart : s.startsDriver c = false) : ∃ t, Refines c s t := by
  obtain ⟨t, ht⟩ := acceptCommand_answers c s
  have hedges : commandEdges c s = [presentEdge c] := by rw [commandEdges, hstart]; rfl
  have hstep (rest : List Edge) :
      step { s with inputs := presentEdge c :: rest } = .next { t with inputs := rest } :=
    (step_of_command rest c true hb).trans (acceptCommand_ports rest ht)
  refine ⟨t, (commandAtomic_of_not_starts hstart).trans ht, ?_, acceptCommand_ready ht hb hstart, fun rest => ?_⟩
  · exact step_wf (s := { s with inputs := [presentEdge c] }) (t := { t with inputs := [] }) hs (hstep [])
  · rw [hedges]; exact RunsTo.of_step (hstep rest)

theorem refines_of_starts {c : Command} {s : State} (hs : s.wf) (hb : s.BUSY = false)
    (hstart : s.startsDriver c = true) : ∃ t, Refines c s t := by
  cases hd : decode c with
  | error w => exact absurd ((startsDriver_of_illegal s hd).symm.trans hstart) nofun
  | ok i =>
    obtain ⟨⟨⟨dir, p⟩, hdriver⟩, hk⟩ := (startsDriver_iff s hd).mp hstart
    have hatomic : commandAtomic c s = .next (s.driveAtOnce dir p) := by
      rw [commandAtomic_of_legal s hd, execAtomic_of_driver s hdriver, State.whenKeysComplete_of_full _ hk]
    have hedges : commandEdges c s = presentEdge c :: (List.replicate (s.cfg.rounds - 1) idleEdge ++ [idleEdge]) := by
      have hR : 1 ≤ s.cfg.rounds := hs.1.1
      rw [commandEdges, if_pos hstart, ← List.replicate_succ', Nat.sub_add_cancel hR]
    refine ⟨s.driveAtOnce dir p, hatomic, State.wf_answerBlock (s := { s with DIR := dir }) _ hs hb, hb, fun rest => ?_⟩
    have hrun := runsTo_driveAtOnce (es := List.replicate (s.cfg.rounds - 1) idleEdge) true none rest hs hb hk hd
      hdriver (noReset_replicate_idle _) (tickCount_replicate_idle _)
    have hlength : (commandEdges c s).length = 1 + (List.replicate (s.cfg.rounds - 1) idleEdge).length + 1 := by
      rw [hedges, List.length_cons, List.length_append, List.length_singleton, Nat.add_comm 1, Nat.add_right_comm]
    rw [hlength, hedges, List.cons_append, List.append_assoc]
    exact hrun

theorem refines_command (c : Command) {s : State} (hs : s.wf) (hb : s.BUSY = false) : ∃ t, Refines c s t := by
  cases hstart : s.startsDriver c with
  | false => exact refines_of_not_starts hs hb hstart
  | true => exact refines_of_starts hs hb hstart

/-! ### A program on both machines -/

theorem refines_program (cs : List Command) {s : State} (rest : List Edge) (hs : s.wf) (hb : s.BUSY = false) :
    ∃ t rs, runAtomic cs s = .next (t, rs) ∧
      RunsTo (schedule cs s).length { s with inputs := schedule cs s ++ rest } { t with inputs := rest } rs := by
  induction cs generalizing s with
  | nil => exact ⟨s, [], rfl, RunsTo.refl { s with inputs := rest }⟩
  | cons c cs ih =>
    obtain ⟨t, hatomic, ht, hready, hrun⟩ := refines_command c hs hb
    obtain ⟨u, rs, hprogram, hruns⟩ := ih ht hready
    refine ⟨u, t.rsp.toList ++ rs, runAtomic_cons hatomic hprogram, ?_⟩
    rw [schedule_cons cs hatomic, List.length_append, List.append_assoc]
    exact (hrun (schedule cs t ++ rest)).trans hruns

/-- Settles O40, by induction on the program: each command is refined on its own. -/
theorem sequencerRefinesAtomicMachine : Obligations.SequencerRefinesAtomicMachine :=
  fun cs _ rest hs hb => refines_program cs rest hs hb

end Sys2Proof.Machine
end

section
/-! The decoder, said once: which instruction a command decodes to, and with which of the three reasons it is
illegal. From that, that decoding and encoding are inverse, and that the decoder follows the opcode map. -/

namespace Sys2Proof

/-! ### The two halves of the opcode map as functions -/

/-- An indexed command is one with the word's opcode and index. -/
theorem indexedInstr_eq_some_iff {op : BitVec 4} {idx : Nat} {i : Instr} :
    indexedInstr op idx = some i ↔ op = i.opcode ∧ i.index? = some idx := by
  constructor
  · intro h
    unfold indexedInstr at h
    split at h
    case h_6 => cases h
    all_goals next hop => cases h; exact ⟨BitVec.eq_of_toNat_eq hop, rfl⟩
  · rintro ⟨rfl, hidx⟩
    cases i <;> cases hidx <;> rfl

/-- A command that is not indexed is one with the word's opcode, and its operand is `wdata` if it has one. -/
theorem plainInstr_eq_some_iff {op : BitVec 4} {w : Word} {i : Instr} :
    plainInstr op w = some i ↔ op = i.opcode ∧ i.index? = none ∧ ∀ v, i.data? = some v → w = v := by
  constructor
  · intro h
    unfold plainInstr at h
    split at h
    case h_11 => cases h
    all_goals next hop => cases h; exact ⟨BitVec.eq_of_toNat_eq hop, rfl, by simp [Instr.data?]⟩
  · rintro ⟨rfl, hidx, hdata⟩
    cases i with
    | lds imm => cases hdata imm rfl; rfl
    | kpush imm => cases hdata imm rfl; rfl
    | mixi imm => cases hdata imm rfl; rfl
    | enc imm => cases hdata imm rfl; rfl
    | dec imm => cases hdata imm rfl; rfl
    | _ => cases hidx <;> rfl

/-- The opcode of a command that is not indexed names no indexed command. -/
theorem indexedInstr_opcode_of_plain {i : Instr} (idx : Nat) (h : i.index? = none) :
    indexedInstr i.opcode idx = none := by
  cases i <;> cases h <;> rfl

/-- The opcodes of the indexed commands (R53). -/
theorem indexedInstr_eq_none_iff {op : BitVec 4} {idx : Nat} :
    indexedInstr op idx = none ↔ op ≠ 0x5 ∧ op ≠ 0xA ∧ op ≠ 0xB ∧ op ≠ 0xC ∧ op ≠ 0xD := by
  simp only [ne_eq, ← BitVec.toNat_inj]
  unfold indexedInstr
  split
  case h_6 h5 hA hB hC hD => exact iff_of_true rfl ⟨h5, hA, hB, hC, hD⟩
  all_goals simp [*]

/-- Every opcode but 0 is in one of the two halves. -/
theorem plainInstr_isSome {op : BitVec 4} {idx : Nat} (w : Word) (h0 : op ≠ 0#4) (h : indexedInstr op idx = none) :
    ∃ i, plainInstr op w = some i := by
  have hplain : ∀ op : BitVec 4, op ≠ 0#4 → op ≠ 0x5 ∧ op ≠ 0xA ∧ op ≠ 0xB ∧ op ≠ 0xC ∧ op ≠ 0xD →
      op ∈ ([0x1, 0x2, 0x3, 0x4, 0x6, 0x7, 0x8, 0x9, 0xE, 0xF] : List (BitVec 4)) := by decide
  have hop := hplain op h0 (indexedInstr_eq_none_iff.mp h)
  simp only [List.mem_cons, List.not_mem_nil, or_false] at hop
  rcases hop with rfl | rfl | rfl | rfl | rfl | rfl | rfl | rfl | rfl | rfl <;> exact ⟨_, rfl⟩

/-! ### The decoder -/

theorem decode_opcodeZero {c : Command} (h0 : opField c.cmd = 0#4) : decode c = .error .opcodeZero := by
  rw [decode, if_pos h0]

theorem decode_reservedNotZero {c : Command} (h0 : opField c.cmd ≠ 0#4) (hr : rsvField c.cmd ≠ 0#4) :
    decode c = .error .reservedNotZero := by
  rw [decode, if_neg h0, if_pos hr]

theorem decode_indexNotZero {c : Command} (h0 : opField c.cmd ≠ 0#4) (hr : rsvField c.cmd = 0#4)
    (hn : indexedInstr (opField c.cmd) (idxField c.cmd).toNat = none) (hx : idxField c.cmd ≠ 0#8) :
    decode c = .error .indexNotZero := by
  rw [decode, if_neg h0, if_neg (not_not.mpr hr), hn]
  exact if_pos hx

/-- Everything the decoder can answer, in the order of R54. -/
theorem decode_cases (c : Command) :
    (opField c.cmd = 0#4 ∧ decode c = .error .opcodeZero) ∨
    (opField c.cmd ≠ 0#4 ∧ rsvField c.cmd ≠ 0#4 ∧ decode c = .error .reservedNotZero) ∨
    (opField c.cmd ≠ 0#4 ∧ rsvField c.cmd = 0#4 ∧ idxField c.cmd ≠ 0#8 ∧
      indexedInstr (opField c.cmd) (idxField c.cmd).toNat = none ∧ decode c = .error .indexNotZero) ∨
    (∃ i, opField c.cmd ≠ 0#4 ∧ rsvField c.cmd = 0#4 ∧
      indexedInstr (opField c.cmd) (idxField c.cmd).toNat = some i ∧ decode c = .ok i) ∨
    (∃ i, opField c.cmd ≠ 0#4 ∧ rsvField c.cmd = 0#4 ∧ idxField c.cmd = 0#8 ∧
      indexedInstr (opField c.cmd) (idxField c.cmd).toNat = none ∧ plainInstr (opField c.cmd) c.wdata = some i ∧
      decode c = .ok i) := by
  by_cases h0 : opField c.cmd = 0#4
  · exact .inl ⟨h0, decode_opcodeZero h0⟩
  by_cases hr : rsvField c.cmd = 0#4
  case neg => exact .inr (.inl ⟨h0, hr, decode_reservedNotZero h0 hr⟩)
  cases hn : indexedInstr (opField c.cmd) (idxField c.cmd).toNat with
  | some i => exact .inr (.inr (.inr (.inl ⟨i, h0, hr, rfl, decode_indexed h0 hr hn⟩)))
  | none =>
    by_cases hx : idxField c.cmd = 0#8
    · obtain ⟨i, hi⟩ := plainInstr_isSome c.wdata h0 hn
      exact .inr (.inr (.inr (.inr ⟨i, h0, hr, hx, rfl, hi, decode_plain h0 hr hn hx hi⟩)))
    · exact .inr (.inr (.inl ⟨h0, hr, hx, rfl, decode_indexNotZero h0 hr hn hx⟩))

theorem Instr.opcode_ne_zero (i : Instr) : i.opcode ≠ 0#4 := by
  cases i <;> simp [Instr.opcode]

/-- No command is indexed and uses `wdata` (R53). -/
theorem Instr.data?_of_index? {i : Instr} {idx : Nat} (h : i.index? = some idx) : i.data? = none := by
  cases i <;> cases h <;> rfl

/-- Which instruction a command decodes to: the one with its opcode, its index (0 if it has none) and, if it uses
`wdata`, its data operand, provided the reserved nibble is 0 (R51 to R54). -/
theorem decode_eq_ok_iff {c : Command} {i : Instr} :
    decode c = .ok i ↔
      opField c.cmd = i.opcode ∧ rsvField c.cmd = 0#4 ∧ (idxField c.cmd).toNat = i.index?.getD 0 ∧
        ∀ v, i.data? = some v → c.wdata = v := by
  constructor
  · intro h
    rcases decode_cases c with ⟨-, hd⟩ | ⟨-, -, hd⟩ | ⟨-, -, -, -, hd⟩ | ⟨j, -, hr, hj, hd⟩ |
      ⟨j, -, hr, hx, -, hj, hd⟩ <;> cases hd.symm.trans h
    · obtain ⟨hop, hidx⟩ := indexedInstr_eq_some_iff.mp hj
      exact ⟨hop, hr, by rw [hidx]; rfl, by simp [Instr.data?_of_index? hidx]⟩
    · obtain ⟨hop, hidx, hdata⟩ := plainInstr_eq_some_iff.mp hj
      exact ⟨hop, hr, by rw [hidx, hx]; rfl, hdata⟩
  · rintro ⟨hop, hr, hx, hdata⟩
    have h0 : opField c.cmd ≠ 0#4 := hop ▸ i.opcode_ne_zero
    cases hidx : i.index? with
    | some idx =>
      rw [hidx] at hx
      exact decode_indexed h0 hr (indexedInstr_eq_some_iff.mpr ⟨hop, hx ▸ hidx⟩)
    | none =>
      rw [hidx] at hx
      have hnone : indexedInstr (opField c.cmd) (idxField c.cmd).toNat = none :=
        hop ▸ indexedInstr_opcode_of_plain _ hidx
      exact decode_plain h0 hr hnone (BitVec.eq_of_toNat_eq hx) (plainInstr_eq_some_iff.mpr ⟨hop, hidx, hdata⟩)

/-! ### Decoding and encoding -/

theorem Instr.wellFormed_iff (i : Instr) : i.WellFormed ↔ i.index?.getD 0 < 256 := by
  cases i <;> simp [Instr.WellFormed, Instr.wellFormed, Instr.index?]

/-- A word with the fields of an instruction decodes to it, `wdata` being its data operand if it has one. -/
theorem decode_of_fields {cmd w : Word} {i : Instr} (hfields : opField cmd = i.opcode ∧ rsvField cmd = 0#4 ∧
    (idxField cmd).toNat = i.index?.getD 0) (hdata : i.data?.getD w = w) : decode ⟨cmd, w⟩ = .ok i := by
  obtain ⟨hop, hrsv, hidx⟩ := hfields
  exact decode_eq_ok_iff.mpr ⟨hop, hrsv, hidx, fun v hv => by rw [hv] at hdata; exact hdata.symm⟩

/-- Settles O1, from the fields of an encoded instruction: the index of a well-formed one fits its field. -/
theorem decodeOfEncode : Obligations.DecodeOfEncode := by
  intro i hi
  obtain ⟨hop, hrsv, hidx⟩ := Laws.EncodeFields.of_index i.wellFormed_iff.mp
  exact decode_of_fields ⟨hop, hrsv, hidx hi⟩ (by cases i.data? <;> rfl)

/-- Settles O2: the opcode, the reserved nibble and the index of a word that decodes are those of the encoding. -/
theorem encodeOfDecode : Obligations.EncodeOfDecode := by
  intro c i h
  obtain ⟨hop, hrsv, hidx, hdata⟩ := decode_eq_ok_iff.mp h
  refine ⟨i.wellFormed_iff.mpr (hidx ▸ (idxField c.cmd).isLt), ?_, hdata, fun hnone w => ?_⟩
  · rw [word_eq_fields c.cmd, encode, commandWord, hop, hrsv, ← hidx, BitVec.ofNat_toNat, BitVec.setWidth_eq]
  · exact decode_eq_ok_iff.mpr ⟨hop, hrsv, hidx, by simp [hnone]⟩

/-- Settles O3, along the outcomes of the decoder, which exclude one another. -/
theorem illegalExactly : Obligations.IllegalExactly := by
  refine ⟨fun c => ?_, by decide, by decide⟩
  rw [← indexedInstr_eq_none_iff (idx := (idxField c.cmd).toNat)]
  rcases decode_cases c with ⟨h0, hd⟩ | ⟨h0, hr, hd⟩ | ⟨h0, hr, hx, hn, hd⟩ | ⟨i, h0, hr, hi, hd⟩ |
    ⟨i, h0, hr, hx, hn, -, hd⟩ <;> simp [*]

/-- No `wdata` makes a word legal or illegal, or changes the reason (R54). -/
theorem decode_error_wdata {cmd w : Word} {e : Illegal} (w' : Word) (h : decode ⟨cmd, w⟩ = .error e) :
    decode ⟨cmd, w'⟩ = .error e := by
  rcases decode_cases ⟨cmd, w⟩ with ⟨h0, hd⟩ | ⟨h0, hr, hd⟩ | ⟨h0, hr, hx, hn, hd⟩ | ⟨i, -, -, -, hd⟩ |
    ⟨i, -, -, -, -, -, hd⟩ <;> cases hd.symm.trans h
  · exact decode_opcodeZero h0
  · exact decode_reservedNotZero h0 hr
  · exact decode_indexNotZero h0 hr hn hx

/-- Settles O5: the fields of each legal word are those of its instruction, and `wdata` plays no part in an illegal
one. -/
theorem writtenWordsDecode : Obligations.WrittenWordsDecode := by
  intro w
  refine ⟨?_, ?_, ?_, ?_, ?_, ?_, ?_, ?_, ?_, ?_, ?_, ?_, ?_, ?_, ?_, ?_,
    decode_error_wdata (w := 0) w (by rfl), decode_error_wdata (w := 0) w (by rfl),
    decode_error_wdata (w := 0) w (by rfl), decode_error_wdata (w := 0) w (by rfl),
    decode_error_wdata (w := 0) w (by rfl)⟩
  all_goals exact decode_of_fields ⟨rfl, rfl, rfl⟩ rfl

/-! ### The opcode map -/

theorem opField_and (v w : Word) : opField (v &&& w) = opField v &&& opField w := BitVec.extractLsb'_and

theorem rsvField_and (v w : Word) : rsvField (v &&& w) = rsvField v &&& rsvField w := BitVec.extractLsb'_and

theorem idxField_and (v w : Word) : idxField (v &&& w) = idxField v &&& idxField w := BitVec.extractLsb'_and

theorem word_eq_iff_fields {v w : Word} :
    v = w ↔ opField v = opField w ∧ rsvField v = rsvField w ∧ idxField v = idxField w := by
  refine ⟨by rintro rfl; exact ⟨rfl, rfl, rfl⟩, fun ⟨hop, hrsv, hidx⟩ => ?_⟩
  rw [word_eq_fields v, word_eq_fields w, hop, hrsv, hidx]

/-- The row of an instruction: its mnemonic, its word with index 0, and a mask that leaves the index free if the
instruction has one (R53). -/
def Instr.row (i : Instr) : OpcodeRow :=
  ⟨i.mnemonic, commandWord i.opcode 0, if i.index?.isSome then 0xFF00 else 0xFFFF⟩

theorem Instr.row_mem (i : Instr) : i.row ∈ opcodeTable := by
  cases i <;> simp [Instr.row, Instr.mnemonic, Instr.opcode, Instr.index?, commandWord, opcodeTable]

/-- Each row of the map is the row of an instruction, whose operands may be chosen. -/
theorem exists_instr_of_row {row : OpcodeRow} (h : row ∈ opcodeTable) (idx : Nat) (w : Word) :
    ∃ i : Instr, i.row = row ∧ i.index?.getD idx = idx ∧ i.data?.getD w = w := by
  have hrows : opcodeTable = [.lds w, .rds, .kclr, .kpush w, .mix idx, .mixi w, .sub, .isub, .perm, .rnd idx,
      .irnd idx, .lrnd idx, .ilrnd idx, .enc w, .dec w].map Instr.row := by
    simp [Instr.row, Instr.mnemonic, Instr.opcode, Instr.index?, commandWord, opcodeTable]
  rw [hrows, List.mem_map] at h
  obtain ⟨i, hi, rfl⟩ := h
  refine ⟨i, rfl, ?_⟩
  revert i
  simp [Instr.index?, Instr.data?]

/-- The words an instruction's row covers: those with its opcode, a reserved nibble of 0 and, if it has no index, an
index field of 0. -/
theorem Instr.row_covers_iff (i : Instr) (w : Word) :
    i.row.covers w = true ↔
      opField w = i.opcode ∧ rsvField w = 0#4 ∧ (i.index? = none → idxField w = 0#8) := by
  have hfree : opField 0xFF00 = BitVec.allOnes 4 ∧ rsvField 0xFF00 = BitVec.allOnes 4 ∧ idxField 0xFF00 = 0#8 := by
    decide
  have hfixed : opField 0xFFFF = BitVec.allOnes 4 ∧ rsvField 0xFFFF = BitVec.allOnes 4 ∧
      idxField 0xFFFF = BitVec.allOnes 8 := by decide
  rw [OpcodeRow.covers, beq_iff_eq, word_eq_iff_fields, opField_and, rsvField_and, idxField_and]
  cases hidx : i.index? with
  | none => simp only [Instr.row, hidx, Option.isSome_none, Bool.false_eq_true, if_false, hfixed, BitVec.and_allOnes,
      opField_commandWord, rsvField_commandWord, idxField_commandWord, forall_const]
  | some idx => simp only [Instr.row, hidx, Option.isSome_some, if_true, hfree, BitVec.and_allOnes, BitVec.and_zero,
      opField_commandWord, rsvField_commandWord, idxField_commandWord, reduceCtorEq, false_implies, and_true]

/-- Two rows cover no common word, since both fix the opcode and no opcode stands in two rows. -/
theorem opcodeTable_disjoint :
    opcodeTable.Pairwise (fun r q => ∀ w : Word, ¬ (r.covers w = true ∧ q.covers w = true)) := by
  have hdistinct : opcodeTable.Pairwise (fun r q => opField r.pattern ≠ opField q.pattern) := by decide
  have hop {row : OpcodeRow} {w : Word} (hrow : row ∈ opcodeTable) (hw : row.covers w = true) :
      opField w = opField row.pattern := by
    obtain ⟨i, rfl, -⟩ := exists_instr_of_row hrow 0 0
    rw [((i.row_covers_iff w).mp hw).1, Instr.row, opField_commandWord]
  exact hdistinct.imp_of_mem fun hr hq hne w ⟨hrw, hqw⟩ => hne ((hop hr hrw).symm.trans (hop hq hqw))

/-- Settles O4: the row of an instruction covers exactly the words that decode to it for some operands. -/
theorem decodeFollowsTheOpcodeMap : Obligations.DecodeFollowsTheOpcodeMap := by
  refine ⟨fun c => ⟨fun i h => ?_, fun row hrow hcovers => ?_⟩, opcodeTable_disjoint⟩
  · obtain ⟨hop, hrsv, hidx, -⟩ := decode_eq_ok_iff.mp h
    refine ⟨i.row, i.row_mem, (i.row_covers_iff c.cmd).mpr ⟨hop, hrsv, fun hnone => ?_⟩, rfl⟩
    rw [hnone] at hidx
    exact BitVec.eq_of_toNat_eq hidx
  · obtain ⟨i, rfl, hidx, hdata⟩ := exists_instr_of_row hrow (idxField c.cmd).toNat c.wdata
    obtain ⟨hop, hrsv, hx⟩ := (i.row_covers_iff c.cmd).mp hcovers
    refine ⟨i, decode_of_fields ⟨hop, hrsv, ?_⟩ hdata, rfl⟩
    cases hi : i.index? with
    | none => rw [hx hi]; rfl
    | some idx => rw [hi] at hidx; exact hidx.symm

end Sys2Proof
end

section
/-! Decryption undoes encryption, layer by layer and round by round (R112). -/

namespace Sys2Proof.Machine

/-! ### The layers -/

theorem isbox_sbox (n : Nibble) : isbox (sbox n) = n := by
  revert n; decide

theorem invSubLayer_subLayer (v : Word) : invSubLayer (subLayer v) = v :=
  eq_of_nib_eq fun j hj => by rw [nib_invSubLayer _ hj, nib_subLayer _ hj, isbox_sbox]

/-- The bits of a union of moved bits. -/
theorem getLsbD_foldl_movedBit (v a : Word) (l : List Nat) (k : Nat) :
    (l.foldl (fun w i => w ||| movedBit v i) a).getLsbD k =
      (a.getLsbD k || l.any fun i => (movedBit v i).getLsbD k) := by
  induction l generalizing a with
  | nil => simp
  | cons i l ih => rw [List.foldl_cons, ih, BitVec.getLsbD_or, List.any_cons, Bool.or_assoc]

theorem pbox_lt {i : Nat} (hi : i < 16) : pbox i < 16 := by
  unfold pbox; omega

/-- Rule R74: the P-box is its own inverse. -/
theorem pbox_pbox {i : Nat} (hi : i < 16) : pbox (pbox i) = i := by
  unfold pbox; omega

/-- Rule R77: bit `k` of the output is the bit of the input that moves to `k`. -/
theorem getLsbD_permLayer (v : Word) {k : Nat} (hk : k < 16) : (permLayer v).getLsbD k = v.getLsbD (pbox k) := by
  rw [permLayer, getLsbD_foldl_movedBit, BitVec.getLsbD_zero, Bool.false_or, Bool.eq_iff_iff, List.any_eq_true]
  constructor
  · rintro ⟨i, hi, hbit⟩
    rw [List.mem_range] at hi
    simp only [getLsbD_movedBit v hi hk, Bool.and_eq_true, decide_eq_true_eq] at hbit
    rw [hbit.1, pbox_pbox hi]
    exact hbit.2
  · intro hbit
    refine ⟨pbox k, List.mem_range.mpr (pbox_lt hk), ?_⟩
    simp [getLsbD_movedBit v (pbox_lt hk) hk, pbox_pbox hk, hbit]

theorem permLayer_permLayer (v : Word) : permLayer (permLayer v) = v :=
  BitVec.eq_of_getLsbD_eq fun k hk => by
    rw [getLsbD_permLayer _ hk, getLsbD_permLayer _ (pbox_lt hk), pbox_pbox hk]

theorem mix_mix (v k : Word) : mix (mix v k) k = v := by
  rw [mix, mix, BitVec.xor_assoc, BitVec.xor_self, BitVec.xor_zero]

/-! ### The rounds and the drivers -/

theorem invFullRound_fullRound (v k : Word) : invFullRound (fullRound v k) k = v := by
  rw [invFullRound, fullRound, permLayer_permLayer, invSubLayer_subLayer, mix_mix]

theorem invLastRound_lastRound (v ka kb : Word) : invLastRound (lastRound v ka kb) ka kb = v := by
  rw [invLastRound, lastRound, mix_mix, invSubLayer_subLayer, mix_mix]

theorem decryptRounds_encryptRounds (keys : List Word) (n : Nat) (p : Word) :
    decryptRounds keys n (encryptRounds keys n p) = p := by
  induction n with
  | zero => rfl
  | succ n ih => rw [encryptRounds, decryptRounds, invFullRound_fullRound, ih]

theorem decrypt_encrypt (R : Nat) (keys : List Word) (p : Word) : decrypt R keys (encrypt R keys p) = p := by
  rw [decrypt, encrypt, invLastRound_lastRound, decryptRounds_encryptRounds]

end Sys2Proof.Machine
end

section
/-! The pseudo-instructions: what an expansion does up to its first error, and the state a `KLOAD` leaves. -/

namespace Sys2Proof.Machine

/-! ### Expansions -/

/-- An expansion whose first commands have answered `OK` goes on with the rest. -/
theorem runPseudo_append {before : List Instr} {s t : State} (rest : List Instr) (h : runPseudo before s = .next t)
    (ok : before = [] ∨ t.answeredOk = true) : runPseudo (before ++ rest) s = runPseudo rest t := by
  induction before generalizing s with
  | nil => cases h; rfl
  | cons i is ih =>
    have ok : t.answeredOk = true := ok.resolve_left nofun
    obtain ⟨u, hu, hrun⟩ := andThen_eq_next h
    cases hok : u.answeredOk with
    | true =>
      rw [hok, if_pos rfl] at hrun
      rw [List.cons_append, runPseudo_cons_of_ok _ hu hok, ih hrun (.inr ok)]
    | false =>
      rw [hok, if_neg nofun] at hrun
      cases hrun
      exact absurd (hok.symm.trans ok) nofun

/-- Rule R59: an expansion ends with the first command that answers an error. -/
theorem runPseudo_append_of_error {before : List Instr} {i : Instr} {s t u : State} (after : List Instr)
    (h : runPseudo before s = .next t) (ok : before = [] ∨ t.answeredOk = true) (hi : execAtomic i t = .next u)
    (error : u.answeredOk = false) : runPseudo (before ++ i :: after) s = .next u :=
  (runPseudo_append _ h ok).trans (runPseudo_cons_of_error after hi error)

theorem runPseudo_singleton {i : Instr} {s t : State} (h : execAtomic i s = .next t) :
    runPseudo [i] s = .next t := by
  cases hok : t.answeredOk with
  | true => exact runPseudo_cons_of_ok [] h hok
  | false => exact runPseudo_cons_of_error [] h hok

theorem State.answeredOk_raise {st : Status} (s : State) (h : st ≠ .ok) : (s.raise st).answeredOk = false :=
  beq_eq_false_iff_ne.mpr h

/-! ### Loading keys -/

/-- What `KLOAD` of `keys` leaves in `s`: the keys in order at the front of the store, and their number as the key
count and as the response. -/
def State.loaded (keys : List Word) (s : State) : State :=
  { s with K := keys ++ s.K.drop keys.length, KN := keys.length, rsp := some ⟨.ok, countData keys.length⟩ }

/-- One key more, pushed while there is room. -/
theorem exec_kpush_loaded {keys : List Word} {s : State} (v : Word) (hK : s.K.length = s.cfg.keyCount)
    (hroom : keys.length < s.cfg.keyCount) :
    exec (.kpush v) (s.loaded keys) = .next (s.loaded (keys ++ [v])) := by
  have hstore : (keys ++ s.K.drop keys.length).set keys.length v = keys ++ [v] ++ s.K.drop (keys.length + 1) := by
    rw [List.set_append_right _ _ le_rfl, Nat.sub_self, List.drop_eq_getElem_cons (hK ▸ hroom), List.set_cons_zero,
      List.append_assoc, List.singleton_append]
  rw [exec_kpush_of_room (s := s.loaded keys) v hroom.ne]
  simp only [State.loaded, State.appendKey, State.respond, hstore, List.length_append, List.length_singleton]

theorem kload_append (keys rest : List Word) : kload (keys ++ rest) = kload keys ++ rest.map .kpush := by
  rw [kload, kload, List.map_append, List.cons_append]

/-- Rules R59, R133: `KLOAD` of as many keys as the store has room for. -/
theorem runPseudo_kload {keys : List Word} {s : State} (hK : s.K.length = s.cfg.keyCount)
    (hkeys : keys.length ≤ s.cfg.keyCount) : runPseudo (kload keys) s = .next (s.loaded keys) := by
  induction keys using List.reverseRecOn with
  | nil => exact runPseudo_singleton rfl
  | append_singleton keys v ih =>
    rw [List.length_append, List.length_singleton] at hkeys
    rw [kload_append, runPseudo_append _ (ih (by omega)) (.inr rfl)]
    exact runPseudo_singleton (exec_kpush_loaded v hK hkeys)

/-- Rule R147: `KLOAD` of more keys ends at the first one too many, and nothing after it runs. -/
theorem runPseudo_kload_overflow {keys : List Word} {s : State} (tail : List Instr) (hK : s.K.length = s.cfg.keyCount)
    (hkeys : s.cfg.keyCount < keys.length) :
    runPseudo (kload keys ++ tail) s = .next ((s.loaded (keys.take s.cfg.keyCount)).raise .keyFull) := by
  have hlen : (keys.take s.cfg.keyCount).length = s.cfg.keyCount := List.length_take_of_le hkeys.le
  have hsplit : kload keys ++ tail = kload (keys.take s.cfg.keyCount) ++
      Instr.kpush keys[s.cfg.keyCount] :: ((keys.drop (s.cfg.keyCount + 1)).map .kpush ++ tail) := by
    conv_lhs => rw [← List.take_append_drop s.cfg.keyCount keys, List.drop_eq_getElem_cons hkeys]
    rw [kload_append, List.map_cons, List.append_assoc, List.cons_append]
  rw [hsplit]
  exact runPseudo_append_of_error _ (runPseudo_kload hK hlen.le) (.inr rfl) (exec_kpush_of_full _ hlen)
    (State.answeredOk_raise _ nofun)

/-- Rules R59, R113, R114: a driver command after `KLOAD` checks the keys loaded and computes with them. -/
theorem runPseudo_kload_driver {keys : List Word} {s : State} {i : Instr} {dir : Dir} {p : Word}
    (hK : s.K.length = s.cfg.keyCount) (hkeys : keys.length ≤ s.cfg.keyCount) (hi : driver? i = some (dir, p)) :
    runPseudo (kload keys ++ [i]) s = .next ((s.loaded keys).whenKeysComplete (State.driveAtOnce dir p)) := by
  rw [runPseudo_append _ (runPseudo_kload hK hkeys) (.inr rfl)]
  exact runPseudo_singleton (execAtomic_of_driver _ hi)

/-- The state that `ENCK` or `DECK` with `R + 1` keys leaves. -/
def State.driven (dir : Dir) (keys : List Word) (p : Word) (s : State) : State :=
  { s with K := keys, KN := keys.length, DIR := dir, S := transform dir s.cfg.rounds keys p,
           rsp := some ⟨.ok, transform dir s.cfg.rounds keys p⟩ }

theorem State.loaded_of_full {keys : List Word} {s : State} (hK : s.K.length = s.cfg.keyCount)
    (hkeys : keys.length = s.cfg.keyCount) :
    s.loaded keys = { s with K := keys, KN := keys.length, rsp := some ⟨.ok, countData keys.length⟩ } := by
  rw [State.loaded, List.drop_of_length_le (hK.trans hkeys.symm).le, List.append_nil]

theorem runPseudo_driven {keys : List Word} {s : State} {i : Instr} {dir : Dir} {p : Word}
    (hK : s.K.length = s.cfg.keyCount) (hkeys : keys.length = s.cfg.keyCount) (hi : driver? i = some (dir, p)) :
    runPseudo (kload keys ++ [i]) s = .next (s.driven dir keys p) := by
  rw [runPseudo_kload_driver hK hkeys.le hi, State.whenKeysComplete_of_full (s := s.loaded keys) _ hkeys.ge,
    State.loaded_of_full hK hkeys]
  rfl

/-! ### The obligations on pseudo-instructions -/

/-- Settles O55: no entry of the old store is left, and the full store refuses one key more. -/
theorem kloadFillsTheStore : Obligations.KloadFillsTheStore := by
  rintro keys s ⟨-, ⟨hK, -⟩, -, -⟩ hkeys
  refine ⟨s.loaded keys, runPseudo_kload hK hkeys.le, ?_, fun v => exec_kpush_of_full v hkeys⟩
  rw [State.loaded_of_full hK hkeys, hkeys, countData]

/-- Settles O56: the keys loaded are the ones the drivers take, and decryption undoes encryption. -/
theorem keyedPseudoInstructions : Obligations.KeyedPseudoInstructions := by
  rintro keys p s ⟨-, ⟨hK, -⟩, -, -⟩ hkeys
  have henck := runPseudo_driven (i := .enc p) hK hkeys rfl
  refine ⟨⟨_, henck, rfl, rfl, rfl, hkeys⟩, ⟨_, runPseudo_driven (i := .dec p) hK hkeys rfl, rfl, rfl, rfl, hkeys⟩, ?_⟩
  refine ⟨(s.driven .enc keys p).driven .dec keys (encrypt s.cfg.rounds keys p), ?_, ?_⟩
  · rw [enck, henck, andThen_next]
    exact runPseudo_driven (s := s.driven .enc keys p) hkeys hkeys rfl
  · rw [State.driven, transform]
    exact congrArg (fun v => some (Response.mk .ok v)) (decrypt_encrypt s.cfg.rounds keys p)

/-- Settles O57: the checks of a driver command see the number of keys loaded, and an error changes no register. -/
theorem pseudoInstructionStopsAtAnError : Obligations.PseudoInstructionStopsAtAnError := by
  refine ⟨fun before after i s t u => runPseudo_append_of_error after, ?_, ?_⟩
  · rintro keys p s ⟨-, ⟨hK, -⟩, -, -⟩ expansion hexp
    obtain ⟨i, dir, hi, rfl⟩ : ∃ i dir, driver? i = some (dir, p) ∧ expansion = kload keys ++ [i] := by
      rcases hexp with rfl | rfl
      exacts [⟨.enc p, .enc, rfl, rfl⟩, ⟨.dec p, .dec, rfl, rfl⟩]
    refine ⟨?_, fun hpos hfew => ?_⟩
    · rintro rfl
      refine ⟨_, runPseudo_kload_driver hK (Nat.zero_le _) hi, ?_⟩
      rw [State.whenKeysComplete_of_empty (s := s.loaded []) _ rfl]
      exact ⟨rfl, rfl, rfl⟩
    · refine ⟨_, runPseudo_kload_driver hK hfew.le hi, ?_⟩
      rw [State.whenKeysComplete_of_few (s := s.loaded keys) _ hpos hfew]
      exact ⟨rfl, rfl, rfl⟩
  · rintro keys p s ⟨-, ⟨hK, -⟩, -, -⟩ hkeys expansion hexp
    obtain ⟨tail, rfl⟩ : ∃ tail, expansion = kload keys ++ tail := by
      rcases hexp with rfl | rfl | rfl
      exacts [⟨_, rfl⟩, ⟨_, rfl⟩, ⟨[], (List.append_nil _).symm⟩]
    have hlen : (keys.take s.cfg.keyCount).length = s.cfg.keyCount := List.length_take_of_le hkeys.le
    refine ⟨_, runPseudo_kload_overflow tail hK hkeys, rfl, rfl, ?_, hlen⟩
    rw [State.loaded_of_full hK hlen]
    rfl

/-! ### The response of a block command -/

/-- Settles O44: such a command answers an error, or writes what it answers. -/
theorem responseCarriesTheBlock : Obligations.ResponseCarriesTheBlock := by
  intro i s t r h hrsp hok hclr hpush hdriver
  rcases exec_cases h with ⟨st, hst, rfl⟩ | ⟨v, -, rfl⟩ | ⟨hi, -⟩ | ⟨v, hi, -, -⟩ | ⟨dir, p, hd, -, -⟩
  · cases hrsp
    rcases hst with rfl | rfl | rfl | rfl <;> cases hok
  · cases hrsp; rfl
  · exact absurd hi hclr
  · exact absurd hi (hpush v)
  · exact absurd (hdriver.symm.trans hd) nofun

end Sys2Proof.Machine
end

section
/-! The assembler reads back the text of an instruction: numbers, then lines, then operands (R58). -/

namespace Sys2Proof.Machine

/-! ### Numbers -/

theorem decDigit?_of_isDigit {c : Char} (h : c.isDigit = true) : decDigit? c = some (c.toNat - '0'.toNat) := by
  rw [Char.isDigit, Bool.and_eq_true, decide_eq_true_eq, decide_eq_true_eq] at h
  exact if_pos ⟨h.1, h.2⟩

/-- The value of a text of decimal digits is the library's. -/
theorem digitsValue?_ofDigitChars {cs : List Char} (acc : Nat) (h : ∀ c ∈ cs, c.isDigit = true) :
    digitsValue? 10 decDigit? acc cs = some (Nat.ofDigitChars 10 cs acc) := by
  induction cs generalizing acc with
  | nil => rfl
  | cons c cs ih =>
    obtain ⟨hc, hcs⟩ := List.forall_mem_cons.mp h
    rw [digitsValue?, decDigit?_of_isDigit hc, Nat.ofDigitChars_cons, Nat.mul_comm 10]
    exact ih _ hcs

theorem isDigit_of_mem_decimal {n : Nat} {c : Char} (h : c ∈ Nat.toDigits 10 n) : c.isDigit = true :=
  Nat.isDigit_of_mem_toDigits (by decide) le_rfl h

/-- A decimal number is read back. -/
theorem decimal?_toDigits {bound n : Nat} (h : n < bound) : decimal? bound (Nat.toDigits 10 n) = some n := by
  rw [decimal?, if_neg (by simp [Nat.toDigits_ne_nil]), digitsValue?_ofDigitChars 0 fun _ => isDigit_of_mem_decimal,
    Nat.ofDigitChars_toDigits (by decide) le_rfl]
  exact if_pos h

theorem hexDigit?_hexChar (n : Nibble) : hexDigit? (hexChar n) = some n.toNat := by
  revert n; decide

/-- A 16-bit number of four hexadecimal digits is read back. -/
theorem imm16?_imm16Text (v : Word) : imm16? (imm16Text v) = some v := by
  simp only [imm16Text, imm16?, digitsValue?, hexDigit?_hexChar, Option.map_some]
  refine congrArg some (BitVec.eq_of_toNat_eq ?_)
  simp only [BitVec.toNat_ofNat, BitVec.extractLsb'_toNat, Nat.shiftRight_eq_div_pow]
  omega

/-! ### Lines -/

/-- A character that ends neither a word nor a line. -/
def isWordChar (c : Char) : Bool := !isBlank c && c != ';'

/-- A text without blanks and comments that is not empty: a mnemonic, or the operand after it. -/
abbrev IsWord (cs : List Char) : Prop := cs ≠ [] ∧ ∀ c ∈ cs, isWordChar c = true

theorem isWordChar_iff (c : Char) : isWordChar c = true ↔ isBlank c = false ∧ c ≠ ';' := by
  simp [isWordChar]

theorem IsWord.not_blank {cs : List Char} (h : IsWord cs) {c : Char} (hc : c ∈ cs) : isBlank c = false :=
  ((isWordChar_iff c).mp (h.2 c hc)).1

theorem IsWord.ne_comment {cs : List Char} (h : IsWord cs) {c : Char} (hc : c ∈ cs) : c ≠ ';' :=
  ((isWordChar_iff c).mp (h.2 c hc)).2

theorem IsWord.no_comment {cs : List Char} (h : IsWord cs) : cs.takeWhile (· != ';') = cs :=
  List.takeWhile_eq_self_iff.mpr fun _ hc => bne_iff_ne.mpr (h.ne_comment hc)

theorem dropWhile_isBlank {cs : List Char} (h : ∀ c ∈ cs.head?, isBlank c = false) : cs.dropWhile isBlank = cs := by
  cases cs with
  | nil => rfl
  | cons c cs => exact List.dropWhile_cons_of_neg (Bool.eq_false_iff.mp (h c rfl))

theorem trimBlanks_of_ends {cs : List Char} (hhead : ∀ c ∈ cs.head?, isBlank c = false)
    (hlast : ∀ c ∈ cs.getLast?, isBlank c = false) : trimBlanks cs = cs := by
  rw [trimBlanks, dropWhile_isBlank hhead, dropWhile_isBlank (by rwa [List.head?_reverse]), List.reverse_reverse]

theorem IsWord.trimBlanks {cs : List Char} (h : IsWord cs) : trimBlanks cs = cs :=
  trimBlanks_of_ends (fun _ hc => h.not_blank (List.mem_of_mem_head? hc))
    (fun _ hc => h.not_blank (List.mem_of_getLast? hc))

theorem IsWord.takeWhile_append {m : List Char} (hm : IsWord m) (rest : List Char) :
    (m ++ rest).takeWhile (fun c => !isBlank c) = m ++ rest.takeWhile fun c => !isBlank c :=
  List.takeWhile_append_of_pos fun _ hc => by rw [hm.not_blank hc]; rfl

theorem IsWord.dropWhile_append {m : List Char} (hm : IsWord m) (rest : List Char) :
    (m ++ rest).dropWhile (fun c => !isBlank c) = rest.dropWhile fun c => !isBlank c :=
  List.dropWhile_append_of_pos fun _ hc => by rw [hm.not_blank hc]; rfl

/-- A line of one word is a command without an operand. -/
theorem parseLine_word {m : List Char} (hm : IsWord m) : parseLine m = assembleParts m [] := by
  have htake := hm.takeWhile_append []
  have hdrop := hm.dropWhile_append []
  rw [List.append_nil, List.takeWhile_nil, List.append_nil] at htake
  rw [List.append_nil, List.dropWhile_nil] at hdrop
  rw [parseLine, hm.no_comment, hm.trimBlanks, htake, hdrop]
  rfl

/-- A line of two words is a command and its operand. -/
theorem parseLine_word_operand {m o : List Char} (hm : IsWord m) (ho : IsWord o) :
    parseLine (m ++ ' ' :: o) = assembleParts m o := by
  have hcomment : (m ++ ' ' :: o).takeWhile (· != ';') = m ++ ' ' :: o := by
    rw [List.takeWhile_append_of_pos fun c hc => bne_iff_ne.mpr (hm.ne_comment hc),
      List.takeWhile_cons_of_pos rfl, ho.no_comment]
  have htrim : Machine.trimBlanks (m ++ ' ' :: o) = m ++ ' ' :: o := by
    refine trimBlanks_of_ends (fun c hc => ?_) fun c hc => ?_
    · rw [List.head?_append_of_ne_nil m hm.1] at hc
      exact hm.not_blank (List.mem_of_mem_head? hc)
    · rw [List.getLast?_append_of_ne_nil m (List.cons_ne_nil _ _), List.getLast?_cons_of_ne_nil ho.1] at hc
      exact ho.not_blank (List.mem_of_getLast? hc)
  have hspace : Machine.trimBlanks (' ' :: o) = o := ho.trimBlanks
  rw [parseLine, hcomment, htrim, hm.takeWhile_append, hm.dropWhile_append, List.takeWhile_cons_of_neg (by decide),
    List.dropWhile_cons_of_neg (by decide), List.append_nil, hspace]

/-! ### Operands -/

theorem isWord_mnemonic (i : Instr) : IsWord i.mnemonic.toList := by
  cases i <;> simp [Instr.mnemonic, IsWord, isWordChar, isBlank]

theorem bareInstr?_mnemonic {i : Instr} (hdata : i.data? = none) (hidx : i.index? = none) :
    bareInstr? i.mnemonic.toList = some i := by
  cases i <;> cases hdata <;> cases hidx <;> rfl

theorem immInstr?_mnemonic {i : Instr} {v : Word} (hdata : i.data? = some v) :
    immInstr? i.mnemonic.toList v = some i := by
  cases i <;> cases hdata <;> simp [immInstr?, Instr.mnemonic]

theorem indexInstr?_mnemonic {i : Instr} {idx : Nat} (hidx : i.index? = some idx) :
    indexInstr? i.mnemonic.toList idx = some i := by
  cases i <;> cases hidx <;> simp [indexInstr?, Instr.mnemonic]

theorem isWordChar_hexChar (n : Nibble) : isWordChar (hexChar n) = true := by
  revert n; decide

theorem isWord_imm16Text (v : Word) : IsWord ('#' :: imm16Text v) := by
  have hmarks : isWordChar '#' = true ∧ isWordChar '0' = true ∧ isWordChar 'x' = true := by decide
  exact ⟨nofun, by simp [imm16Text, isWordChar_hexChar, hmarks]⟩

theorem isWordChar_of_isDigit {c : Char} (h : c.isDigit = true) : isWordChar c = true := by
  simp only [isWordChar_iff, isBlank, Bool.or_eq_false_iff, beq_eq_false_iff_ne, ne_eq]
  refine ⟨⟨?_, ?_⟩, ?_⟩ <;> rintro rfl <;> exact absurd h (by decide)

theorem isWord_index (idx : Nat) : IsWord ('k' :: Nat.toDigits 10 idx) :=
  ⟨nofun, List.forall_mem_cons.mpr ⟨rfl, fun _ hc => isWordChar_of_isDigit (isDigit_of_mem_decimal hc)⟩⟩

/-- Settles O6, along the three operand forms: the line is split at its blank, and the operand is read back. -/
theorem assembleOfListing : Obligations.AssembleOfListing := by
  intro i hi
  suffices hparse : parseLine (listing i) = some i by rw [assembleLine, hparse]; rfl
  have hm := isWord_mnemonic i
  cases hdata : i.data? with
  | some v =>
    have hlisting : listing i = i.mnemonic.toList ++ ' ' :: '#' :: imm16Text v := by rw [listing, hdata]; rfl
    rw [hlisting, parseLine_word_operand hm (isWord_imm16Text v), assembleParts, imm16?_imm16Text]
    exact immInstr?_mnemonic hdata
  | none =>
    cases hidx : i.index? with
    | some idx =>
      have hlisting : listing i = i.mnemonic.toList ++ ' ' :: 'k' :: Nat.toDigits 10 idx := by
        rw [listing, hdata, hidx]; rfl
      have hbound : idx < 256 := by simpa [hidx] using i.wellFormed_iff.mp hi
      rw [hlisting, parseLine_word_operand hm (isWord_index idx), assembleParts, decimal?_toDigits hbound]
      exact indexInstr?_mnemonic hidx
    | none =>
      have hlisting : listing i = i.mnemonic.toList := by rw [listing, hdata, hidx]; exact List.append_nil _
      rw [hlisting, parseLine_word hm]
      exact bareInstr?_mnemonic hdata hidx

end Sys2Proof.Machine
end

section
/-! The tables and the layers as functions: nibbles and bits moved, inverses, fixed points (R70 to R78). -/

namespace Sys2Proof.Machine

/-! ### The tables -/

theorem sbox_isbox (n : Nibble) : sbox (isbox n) = n := by
  revert n; decide

theorem sbox_ne_self (n : Nibble) : sbox n ≠ n := by
  revert n; decide

/-- A fixed point of the inverse table would be one of the table. -/
theorem isbox_ne_self (n : Nibble) : isbox n ≠ n := fun h =>
  sbox_ne_self n ((congrArg sbox h).symm.trans (sbox_isbox n))

/-- Settles O18: the tables are inverse, and the forward one has no fixed point. -/
theorem sboxTablesAreInverse : Obligations.SboxTablesAreInverse :=
  fun n => ⟨isbox_sbox n, sbox_isbox n, sbox_ne_self n, isbox_ne_self n⟩

/-- Rule R74: the P-box transposes the grid of nibbles. -/
theorem pbox_grid (j : Nat) {b : Nat} (hb : b < 4) : pbox (4 * j + b) = 4 * b + j := by
  unfold pbox; omega

/-- Rule R74: the P-box is the same from either end of the word. -/
theorem pbox_reverse {i : Nat} (hi : i < 16) : pbox (15 - i) = 15 - pbox i := by
  unfold pbox; omega

/-- Settles O19, by arithmetic on the grid. -/
theorem pboxTransposesTheGrid : Obligations.PboxTransposesTheGrid :=
  ⟨fun j _ _ hb => pbox_grid j hb, fun _ hi => pbox_pbox hi, fun _ hi => pbox_reverse hi, rfl⟩

/-! ### The substitution layers -/

theorem subLayer_invSubLayer (v : Word) : subLayer (invSubLayer v) = v :=
  eq_of_nib_eq fun j hj => by rw [nib_subLayer _ hj, nib_invSubLayer _ hj, sbox_isbox]

/-- Rule R82: already the lowest nibble changes. -/
theorem subLayer_ne_self (v : Word) : subLayer v ≠ v := fun h =>
  sbox_ne_self (nib v 0) ((nib_subLayer v (Nat.zero_lt_succ 3)).symm.trans (congrArg (nib · 0) h))

/-- Settles O20: nibble by nibble the layers are the two tables, which are inverse. -/
theorem subLayersAreInverse : Obligations.SubLayersAreInverse :=
  ⟨fun v _ hj => ⟨nib_subLayer v hj, nib_invSubLayer v hj⟩,
    fun v => ⟨invSubLayer_subLayer v, subLayer_invSubLayer v⟩, by decide⟩

/-! ### The permutation layer -/

/-- A bit of a nibble is a bit of the word. -/
theorem getLsbD_nib (v : Word) (j : Nat) {b : Nat} (hb : b < 4) : (nib v j).getLsbD b = v.getLsbD (4 * j + b) := by
  simp [nib, hb]

theorem getLsbD_permLayer_pbox (v : Word) {i : Nat} (hi : i < 16) :
    (permLayer v).getLsbD (pbox i) = v.getLsbD i := by
  rw [getLsbD_permLayer v (pbox_lt hi), pbox_pbox hi]

/-- The layer transposes the grid: bit `b` of nibble `j` comes from bit `j` of nibble `b`. -/
theorem getLsbD_permLayer_grid (v : Word) {j b : Nat} (hj : j < 4) (hb : b < 4) :
    (permLayer v).getLsbD (4 * j + b) = v.getLsbD (4 * b + j) := by
  rw [getLsbD_permLayer v (by omega), pbox_grid j hb]

/-- Settles O21, from the bit that moves to each position. -/
theorem permLayerMovesBits : Obligations.PermLayerMovesBits := by
  refine ⟨fun v i hi => ⟨getLsbD_permLayer_pbox v hi, getLsbD_permLayer v hi⟩, fun v j hj b hb => ?_, by decide⟩
  rw [getLsbD_nib _ j hb, getLsbD_nib _ b hj, getLsbD_permLayer_grid v hj hb]

/-- Rule R78 b: the bits of the output are those of the input in another order. -/
theorem onesCount_permLayer (v : Word) : onesCount (permLayer v) = onesCount v := by
  have hperm : ((List.range 16).map pbox).Perm (List.range 16) := by decide
  calc onesCount (permLayer v)
    _ = (List.range 16).countP (v.getLsbD ∘ pbox) :=
        List.countP_congr fun i hi => by rw [getLsbD_permLayer v (List.mem_range.mp hi)]; rfl
    _ = ((List.range 16).map pbox).countP v.getLsbD := List.countP_map.symm
    _ = onesCount v := hperm.countP_eq _

theorem permLayer_xor (a b : Word) : permLayer (a ^^^ b) = permLayer a ^^^ permLayer b :=
  BitVec.eq_of_getLsbD_eq fun k hk => by simp only [BitVec.getLsbD_xor, getLsbD_permLayer _ hk]

/-- Two words with the same grid are equal. -/
theorem eq_of_grid_eq {v w : Word} (h : ∀ j < 4, ∀ b < 4, v.getLsbD (4 * j + b) = w.getLsbD (4 * j + b)) : v = w :=
  BitVec.eq_of_getLsbD_eq fun k hk => by
    have := h (k / 4) (by omega) (k % 4) (by omega)
    rwa [Nat.div_add_mod] at this

/-- Rule R78: the fixed points are the symmetric grids. -/
theorem permLayer_eq_self_iff (v : Word) :
    permLayer v = v ↔ ∀ j < 4, ∀ b < 4, v.getLsbD (4 * j + b) = v.getLsbD (4 * b + j) := by
  constructor
  · intro h j hj b hb
    calc v.getLsbD (4 * j + b)
      _ = (permLayer v).getLsbD (4 * j + b) := by rw [h]
      _ = v.getLsbD (4 * b + j) := getLsbD_permLayer_grid v hj hb
  · intro h
    exact eq_of_grid_eq fun j hj b hb => (getLsbD_permLayer_grid v hj hb).trans (h j hj b hb).symm

/-- Settles O22: each property is one of the bits of the output. -/
theorem permLayerProperties : Obligations.PermLayerProperties :=
  ⟨permLayer_permLayer, onesCount_permLayer, permLayer_xor, by decide, permLayer_eq_self_iff, by decide⟩

end Sys2Proof.Machine
end

section
/-! The layer commands: what each does to the state, and that a command and its inverse restore it (R80 to R84). -/

namespace Sys2Proof

/-- A word whose low byte is the index of an indexed command decodes to it, whatever `wdata`. -/
theorem decode_indexByte {op idx : BitVec 8} {i : Instr} (w : Word) (hop : op.extractLsb' 4 4 = i.opcode)
    (hrsv : op.extractLsb' 0 4 = 0#4) (hidx : i.index? = some idx.toNat) : decode ⟨op ++ idx, w⟩ = .ok i := by
  refine decode_of_fields ⟨(opField_bytes op idx).trans hop, (rsvField_bytes op idx).trans hrsv, ?_⟩ ?_
  · rw [idxField_bytes, hidx]; rfl
  · rw [Instr.data?_of_index? hidx]; rfl

end Sys2Proof

namespace Sys2Proof.Machine

/-! ### Writing the block register -/

/-- An answer with the block register as it is writes nothing but the response. -/
theorem State.answerBlock_self (s : State) : s.answerBlock s.S = { s with rsp := some ⟨.ok, s.S⟩ } := rfl

/-- The second of two answers overwrites the first. -/
@[simp] theorem State.answerBlock_answerBlock (v w : Word) (s : State) :
    (s.answerBlock v).answerBlock w = s.answerBlock w := rfl

/-- Two commands of which the second writes back the block that the first found change nothing but the response. -/
theorem execAll_restores {i j : Instr} {s : State} {v w : Word} (hi : execAtomic i s = .next (s.answerBlock v))
    (hj : execAtomic j (s.answerBlock v) = .next ((s.answerBlock v).answerBlock w)) (hw : w = s.S) :
    execAll [i, j] s = .next { s with rsp := some ⟨.ok, s.S⟩ } := by
  rw [execAll, hi, andThen_next, execAll, hj, andThen_next, execAll, State.answerBlock_answerBlock, hw,
    State.answerBlock_self]

/-! ### The key-mixing commands -/

theorem exec_mix_of_valid {idx : Nat} {s : State} (h : idx < s.KN) :
    exec (.mix idx) s = .next (s.answerBlock (mix s.S (s.readKey idx))) :=
  congrArg _ (State.withKey_of_valid _ h)

theorem exec_mix_of_invalid {idx : Nat} {s : State} (h : s.KN ≤ idx) :
    exec (.mix idx) s = .next (s.raise .keyIndex) :=
  congrArg _ (State.withKey_of_invalid _ h)

/-- Mixing leaves the key store, so the second command finds the same key, and mixing it twice cancels. -/
theorem execAll_mix_mix {idx : Nat} {s : State} (h : idx < s.KN) :
    execAll [.mix idx, .mix idx] s = .next { s with rsp := some ⟨.ok, s.S⟩ } :=
  execAll_restores (exec_mix_of_valid h) (exec_mix_of_valid (s := s.answerBlock _) h) (mix_mix s.S (s.readKey idx))

/-- Settles O23, along the validity of the index. -/
theorem mixMixesAStoredKey : Obligations.MixMixesAStoredKey :=
  ⟨fun _ w => decode_indexByte w rfl rfl rfl,
    fun _ _ => ⟨exec_mix_of_valid, exec_mix_of_invalid, execAll_mix_mix⟩⟩

theorem exec_mixi (k : Word) (s : State) : exec (.mixi k) s = .next (s.answerBlock (mix s.S k)) := rfl

/-- Settles O24: mixing in zeros changes nothing, mixing in ones complements. -/
theorem mixiMixesItsOperand : Obligations.MixiMixesItsOperand := by
  refine ⟨fun k => decode_of_fields ⟨rfl, rfl, rfl⟩ rfl, fun k s => exec_mixi k s, fun s => ⟨?_, ?_⟩⟩
  · have hzero : mix s.S 0x0000 = s.S := BitVec.xor_zero
    rw [exec_mixi, hzero, State.answerBlock_self]
  · have hones : mix s.S 0xFFFF = ~~~s.S := BitVec.xor_allOnes
    rw [exec_mixi, hones]
    rfl

/-! ### The commands of the substitution and permutation layers -/

theorem exec_sub (s : State) : exec .sub s = .next (s.answerBlock (subLayer s.S)) := rfl

theorem exec_isub (s : State) : exec .isub s = .next (s.answerBlock (invSubLayer s.S)) := rfl

theorem exec_perm (s : State) : exec .perm s = .next (s.answerBlock (permLayer s.S)) := rfl

theorem execAll_sub_isub (s : State) : execAll [.sub, .isub] s = .next { s with rsp := some ⟨.ok, s.S⟩ } :=
  execAll_restores (exec_sub s) (exec_isub _) (invSubLayer_subLayer s.S)

theorem execAll_isub_sub (s : State) : execAll [.isub, .sub] s = .next { s with rsp := some ⟨.ok, s.S⟩ } :=
  execAll_restores (exec_isub s) (exec_sub _) (subLayer_invSubLayer s.S)

theorem execAll_perm_perm (s : State) : execAll [.perm, .perm] s = .next { s with rsp := some ⟨.ok, s.S⟩ } :=
  execAll_restores (exec_perm s) (exec_perm _) (permLayer_permLayer s.S)

/-- Settles O25: the commands write what the layers compute, and the layers undo each other. -/
theorem subAndIsubApplyTheLayers : Obligations.SubAndIsubApplyTheLayers :=
  ⟨fun _ => ⟨decode_of_fields ⟨rfl, rfl, rfl⟩ rfl, decode_of_fields ⟨rfl, rfl, rfl⟩ rfl⟩,
    fun s => ⟨exec_sub s, exec_isub s, execAll_sub_isub s, execAll_isub_sub s⟩, subLayer_ne_self, by decide⟩

/-- Settles O26: the layer is an involution, and its fixed points are the symmetric grids. -/
theorem permAppliesTheLayer : Obligations.PermAppliesTheLayer := by
  refine ⟨fun _ => decode_of_fields ⟨rfl, rfl, rfl⟩ rfl,
    fun s => ⟨exec_perm s, execAll_perm_perm s, fun hsymm => ?_⟩, by decide⟩
  rw [exec_perm, (permLayer_eq_self_iff s.S).mpr hsymm, State.answerBlock_self]

end Sys2Proof.Machine
end

section
/-! The rounds: the four functions undo each other (R90 to R94), and the round commands are their three layer commands
(R95 to R98). -/

namespace Sys2Proof.Machine

/-! ### The round functions -/

theorem fullRound_invFullRound (v k : Word) : fullRound (invFullRound v k) k = v := by
  rw [fullRound, invFullRound, mix_mix, subLayer_invSubLayer, permLayer_permLayer]

theorem lastRound_invLastRound (v ka kb : Word) : lastRound (invLastRound v ka kb) ka kb = v := by
  rw [lastRound, invLastRound, mix_mix, subLayer_invSubLayer, mix_mix]

/-- Settles O27: the layers of each round cancel from the inside out. -/
theorem roundsAreInverse : Obligations.RoundsAreInverse :=
  ⟨fun v k => ⟨invFullRound_fullRound v k, fullRound_invFullRound v k⟩,
    fun v ka kb => ⟨invLastRound_lastRound v ka kb, lastRound_invLastRound v ka kb⟩⟩

/-- Settles O28, by evaluating the rounds on the printed values. -/
theorem roundExamples : Obligations.RoundExamples := by
  unfold Obligations.RoundExamples
  decide

/-! ### Three commands that each answer a block -/

theorem execAll_cons {i : Instr} {s t : State} (is : List Instr) (h : execAtomic i s = .next t) :
    execAll (i :: is) s = execAll is t := by
  rw [execAll, h, andThen_next]

/-- Of three commands that each write the block and answer, the last one's answer stands. -/
theorem execAll_three {i j k : Instr} {s : State} {u v w : Word} (hi : execAtomic i s = .next (s.answerBlock u))
    (hj : execAtomic j (s.answerBlock u) = .next ((s.answerBlock u).answerBlock v))
    (hk : execAtomic k (s.answerBlock v) = .next ((s.answerBlock v).answerBlock w)) :
    execAll [i, j, k] s = .next (s.answerBlock w) := by
  rw [State.answerBlock_answerBlock] at hj hk
  rw [execAll_cons _ hi, execAll_cons _ hj, execAll_cons _ hk, execAll]

/-! ### `RND` and `IRND` -/

section
variable {idx : Nat} {s : State}

theorem exec_rnd_of_valid (h : idx < s.KN) :
    exec (.rnd idx) s = .next (s.answerBlock (fullRound s.S (s.readKey idx))) :=
  congrArg _ (State.withKey_of_valid _ h)

theorem exec_irnd_of_valid (h : idx < s.KN) :
    exec (.irnd idx) s = .next (s.answerBlock (invFullRound s.S (s.readKey idx))) :=
  congrArg _ (State.withKey_of_valid _ h)

theorem exec_rnd_of_invalid (h : s.KN ≤ idx) : exec (.rnd idx) s = .next (s.raise .keyIndex) :=
  congrArg _ (State.withKey_of_invalid _ h)

theorem exec_irnd_of_invalid (h : s.KN ≤ idx) : exec (.irnd idx) s = .next (s.raise .keyIndex) :=
  congrArg _ (State.withKey_of_invalid _ h)

/-- Rule R95: the full round is the three layers in order. -/
theorem exec_rnd_eq_layers (h : idx < s.KN) : exec (.rnd idx) s = execAll [.mix idx, .sub, .perm] s :=
  (exec_rnd_of_valid h).trans (.symm (execAll_three (exec_mix_of_valid h) (exec_sub _) (exec_perm _)))

/-- Rule R96: the inverse takes the layers in reverse order. -/
theorem exec_irnd_eq_layers (h : idx < s.KN) : exec (.irnd idx) s = execAll [.perm, .isub, .mix idx] s :=
  (exec_irnd_of_valid h).trans
    (.symm (execAll_three (exec_perm s) (exec_isub _) (exec_mix_of_valid (s := s.answerBlock _) h)))

theorem execAll_rnd_irnd (h : idx < s.KN) :
    execAll [.rnd idx, .irnd idx] s = .next { s with rsp := some ⟨.ok, s.S⟩ } :=
  execAll_restores (exec_rnd_of_valid h) (exec_irnd_of_valid (s := s.answerBlock _) h)
    (invFullRound_fullRound s.S (s.readKey idx))

theorem execAll_irnd_rnd (h : idx < s.KN) :
    execAll [.irnd idx, .rnd idx] s = .next { s with rsp := some ⟨.ok, s.S⟩ } :=
  execAll_restores (exec_irnd_of_valid h) (exec_rnd_of_valid (s := s.answerBlock _) h)
    (fullRound_invFullRound s.S (s.readKey idx))

end

/-- Settles O29, along the validity of the index. -/
theorem roundCommands : Obligations.RoundCommands :=
  ⟨fun _ w => ⟨decode_indexByte w rfl rfl rfl, decode_indexByte w rfl rfl rfl⟩,
    fun _ _ =>
      ⟨fun hvalid => ⟨exec_rnd_of_valid hvalid, exec_irnd_of_valid hvalid, exec_rnd_eq_layers hvalid,
          exec_irnd_eq_layers hvalid, execAll_rnd_irnd hvalid, execAll_irnd_rnd hvalid⟩,
        fun hinvalid => ⟨exec_rnd_of_invalid hinvalid, exec_irnd_of_invalid hinvalid⟩⟩⟩

/-! ### `LRND` and `ILRND` -/

section
variable {idx : Nat} {s : State}

theorem exec_lrnd_of_valid (h : idx + 1 < s.KN) :
    exec (.lrnd idx) s = .next (s.answerBlock (lastRound s.S (s.readKey idx) (s.readKey (idx + 1)))) :=
  congrArg _ (State.withKeyPair_of_valid _ h)

theorem exec_ilrnd_of_valid (h : idx + 1 < s.KN) :
    exec (.ilrnd idx) s = .next (s.answerBlock (invLastRound s.S (s.readKey idx) (s.readKey (idx + 1)))) :=
  congrArg _ (State.withKeyPair_of_valid _ h)

theorem exec_lrnd_of_invalid (h : s.KN ≤ idx + 1) : exec (.lrnd idx) s = .next (s.raise .keyIndex) :=
  congrArg _ (State.withKeyPair_of_invalid _ h)

theorem exec_ilrnd_of_invalid (h : s.KN ≤ idx + 1) : exec (.ilrnd idx) s = .next (s.raise .keyIndex) :=
  congrArg _ (State.withKeyPair_of_invalid _ h)

/-- Rule R97: no permutation, and the second key of the pair is mixed last. -/
theorem exec_lrnd_eq_layers (h : idx + 1 < s.KN) :
    exec (.lrnd idx) s = execAll [.mix idx, .sub, .mix (idx + 1)] s :=
  (exec_lrnd_of_valid h).trans (.symm (execAll_three (exec_mix_of_valid (Nat.lt_of_succ_lt h)) (exec_sub _)
    (exec_mix_of_valid (s := s.answerBlock _) h)))

/-- Rule R98: the second key of the pair is mixed first. -/
theorem exec_ilrnd_eq_layers (h : idx + 1 < s.KN) :
    exec (.ilrnd idx) s = execAll [.mix (idx + 1), .isub, .mix idx] s :=
  (exec_ilrnd_of_valid h).trans (.symm (execAll_three (exec_mix_of_valid h) (exec_isub _)
    (exec_mix_of_valid (s := s.answerBlock _) (Nat.lt_of_succ_lt h))))

theorem execAll_lrnd_ilrnd (h : idx + 1 < s.KN) :
    execAll [.lrnd idx, .ilrnd idx] s = .next { s with rsp := some ⟨.ok, s.S⟩ } :=
  execAll_restores (exec_lrnd_of_valid h) (exec_ilrnd_of_valid (s := s.answerBlock _) h)
    (invLastRound_lastRound s.S (s.readKey idx) (s.readKey (idx + 1)))

theorem execAll_ilrnd_lrnd (h : idx + 1 < s.KN) :
    execAll [.ilrnd idx, .lrnd idx] s = .next { s with rsp := some ⟨.ok, s.S⟩ } :=
  execAll_restores (exec_ilrnd_of_valid h) (exec_lrnd_of_valid (s := s.answerBlock _) h)
    (lastRound_invLastRound s.S (s.readKey idx) (s.readKey (idx + 1)))

/-- Rules R2, R14: the largest build has 256 keys. -/
theorem State.KN_le_of_wf (hs : s.wf) : s.KN ≤ 256 := by
  obtain ⟨⟨-, hrounds⟩, ⟨-, hkeys⟩, -⟩ := hs
  exact hkeys.trans (Nat.succ_le_succ hrounds)

end

/-- Settles O30, along the validity of the pair; the pair of index 255 would end at key 256, which no build has. -/
theorem lastRoundCommands : Obligations.LastRoundCommands :=
  ⟨fun _ w => ⟨decode_indexByte w rfl rfl rfl, decode_indexByte w rfl rfl rfl⟩,
    fun _ _ =>
      ⟨fun hvalid => ⟨exec_lrnd_of_valid hvalid, exec_ilrnd_of_valid hvalid, exec_lrnd_eq_layers hvalid,
          exec_ilrnd_eq_layers hvalid, execAll_lrnd_ilrnd hvalid, execAll_ilrnd_lrnd hvalid⟩,
        fun hinvalid => ⟨exec_lrnd_of_invalid hinvalid, exec_ilrnd_of_invalid hinvalid⟩⟩,
    fun _ hs => ⟨exec_lrnd_of_invalid (State.KN_le_of_wf hs), exec_ilrnd_of_invalid (State.KN_le_of_wf hs)⟩⟩

end Sys2Proof.Machine
end

section
/-! The drivers as passes over the key sequence, and that each undoes the other, round by round (R110 to R112). -/

namespace Sys2Proof.Machine

/-! ### The loops over the key sequence -/

/-- Rule R110: the loop takes the first `n` keys in index order. -/
theorem encryptRounds_eq_foldl {keys : List Word} {n : Nat} (hn : n ≤ keys.length) (p : Word) :
    encryptRounds keys n p = (keys.take n).foldl fullRound p := by
  induction n with
  | zero => rfl
  | succ n ih =>
    rw [encryptRounds, ih (Nat.le_of_succ_le hn), List.take_succ_eq_append_getElem hn, List.foldl_concat, keyAt,
      List.getD_eq_getElem _ _ hn]

/-- Rule R111: the loop takes the first `n` keys in reverse order. -/
theorem decryptRounds_eq_foldl {keys : List Word} {n : Nat} (hn : n ≤ keys.length) (c : Word) :
    decryptRounds keys n c = (keys.take n).reverse.foldl invFullRound c := by
  induction n generalizing c with
  | zero => rfl
  | succ n ih =>
    rw [decryptRounds, ih (Nat.le_of_succ_le hn), List.take_succ_eq_append_getElem hn, List.reverse_concat,
      List.foldl_cons, keyAt, List.getD_eq_getElem _ _ hn]

section
variable (ks : List Word) (ka kb v : Word)

/-- The entry right after a first part of a key sequence. -/
theorem keyAt_append_cons (ls : List Word) (k : Word) : keyAt (ks ++ k :: ls) ks.length = k := by
  simp [keyAt]

theorem keyAt_append_pair_last : keyAt (ks ++ [ka, kb]) (ks.length + 1) = kb := by
  simpa using keyAt_append_cons (ks ++ [ka]) [] kb

theorem length_le_append_pair : ks.length ≤ (ks ++ [ka, kb]).length := by
  simp

/-- Rule R110: the loop passes over the keys before the last two, which are those of the last round. -/
theorem encrypt_append_pair :
    encrypt (ks.length + 1) (ks ++ [ka, kb]) v = lastRound (ks.foldl fullRound v) ka kb := by
  rw [encrypt, Nat.add_sub_cancel, keyAt_append_cons, keyAt_append_pair_last,
    encryptRounds_eq_foldl (length_le_append_pair ks ka kb), List.take_left]

/-- Rule R111: the last two keys first, then the keys before them in reverse order. -/
theorem decrypt_append_pair :
    decrypt (ks.length + 1) (ks ++ [ka, kb]) v = ks.reverse.foldl invFullRound (invLastRound v ka kb) := by
  rw [decrypt, Nat.add_sub_cancel, keyAt_append_cons, keyAt_append_pair_last,
    decryptRounds_eq_foldl (length_le_append_pair ks ka kb), List.take_left]

end

/-- The spec's example of R110, round by round. -/
theorem encrypt_example : encrypt 5 (List.replicate 6 0x0001) 0xFFFF = 0x6C19 :=
  have h0 : fullRound 0xFFFF 0x0001 = 0xF0EF := by decide
  have h1 : fullRound 0xF0EF 0x0001 = 0xB4CB := by decide
  have h2 : fullRound 0xB4CB 0x0001 = 0xA819 := by decide
  have h3 : fullRound 0xA819 0x0001 = 0x028D := by decide
  have hlast : lastRound 0x028D 0x0001 0x0001 = 0x6C19 := by decide
  calc encrypt 5 (List.replicate 6 0x0001) 0xFFFF
    _ = lastRound ((List.replicate 4 0x0001).foldl fullRound 0xFFFF) 0x0001 0x0001 :=
      encrypt_append_pair (List.replicate 4 0x0001) 0x0001 0x0001 0xFFFF
    _ = 0x6C19 := by simp only [List.replicate, List.foldl_cons, List.foldl_nil, h0, h1, h2, h3, hlast]

/-- The spec's example of R111: the decryption of the other example's result. -/
theorem decrypt_example : decrypt 5 (List.replicate 6 0x0001) 0x6C19 = 0xFFFF :=
  (congrArg _ encrypt_example).symm.trans (decrypt_encrypt 5 _ 0xFFFF)

/-- Settles O31, from the two passes over the sequence and the two examples. -/
theorem driversFollowTheKeySequence : Obligations.DriversFollowTheKeySequence := by
  refine ⟨?_, encrypt_example, decrypt_example⟩
  rintro _ ks ka kb p rfl
  exact ⟨encrypt_append_pair ks ka kb p, decrypt_append_pair ks ka kb p⟩

/-! ### One round of an operation -/

theorem encryptRound_full {R r : Nat} (keys : List Word) (v : Word) (h : r < R - 1) :
    encryptRound R keys r v = fullRound v (keyAt keys r) := if_pos h

theorem encryptRound_last {R r : Nat} (keys : List Word) (v : Word) (h : r = R - 1) :
    encryptRound R keys r v = lastRound v (keyAt keys (R - 1)) (keyAt keys R) := if_neg h.not_lt

theorem decryptRound_first (R : Nat) (keys : List Word) (v : Word) :
    decryptRound R keys 0 v = invLastRound v (keyAt keys (R - 1)) (keyAt keys R) := if_pos rfl

theorem decryptRound_full {r : Nat} (R : Nat) (keys : List Word) (v : Word) (h : r ≠ 0) :
    decryptRound R keys r v = invFullRound v (keyAt keys (R - 1 - r)) := if_neg h

/-! ### The round trip -/

theorem encryptRounds_decryptRounds (keys : List Word) (n : Nat) (c : Word) :
    encryptRounds keys n (decryptRounds keys n c) = c := by
  induction n generalizing c with
  | zero => rfl
  | succ n ih => rw [decryptRounds, encryptRounds, ih, fullRound_invFullRound]

theorem encrypt_decrypt (R : Nat) (keys : List Word) (c : Word) : encrypt R keys (decrypt R keys c) = c := by
  rw [encrypt, decrypt, encryptRounds_decryptRounds, lastRound_invLastRound]

/-- Step `j` of a decryption undoes the round of the encryption that is `j` before its last. -/
theorem decryptRound_encryptRound {R j : Nat} (keys : List Word) (v : Word) (hj : j < R) :
    decryptRound R keys j (encryptRound R keys (R - 1 - j) v) = v := by
  rcases Nat.eq_zero_or_pos j with rfl | hpos
  · rw [decryptRound_first, encryptRound_last _ _ (Nat.sub_zero _), invLastRound_lastRound]
  · rw [decryptRound_full _ _ _ hpos.ne', encryptRound_full _ _ (by omega), invFullRound_fullRound]

/-- Rule R112: the values between the rounds of a decryption are those of the encryption in reverse order. -/
theorem valueAfter_dec_encrypt {R : Nat} (keys : List Word) (p : Word) (hR : 1 ≤ R) {j : Nat} (hj : j ≤ R) :
    valueAfter .dec R keys (encrypt R keys p) j = valueAfter .enc R keys p (R - j) := by
  induction j with
  | zero => exact (valueAfter_rounds .enc keys p hR).symm
  | succ j ih =>
    have hleft : R - j = R - 1 - j + 1 := by omega
    calc valueAfter .dec R keys (encrypt R keys p) (j + 1)
      _ = decryptRound R keys j (valueAfter .dec R keys (encrypt R keys p) j) := rfl
      _ = decryptRound R keys j (encryptRound R keys (R - 1 - j) (valueAfter .enc R keys p (R - 1 - j))) := by
        rw [ih (Nat.le_of_succ_le hj), hleft]; rfl
      _ = valueAfter .enc R keys p (R - (j + 1)) := by
        rw [decryptRound_encryptRound keys _ hj, Nat.sub_sub, Nat.add_comm 1]

/-- Settles O32: each driver is the inverse of the other, so both are bijections. -/
theorem driversRoundTrip : Obligations.DriversRoundTrip :=
  ⟨fun R keys p _ _ => ⟨decrypt_encrypt R keys p, encrypt_decrypt R keys p⟩,
    fun R keys _ _ =>
      ⟨Function.bijective_iff_has_inverse.mpr ⟨decrypt R keys, decrypt_encrypt R keys, encrypt_decrypt R keys⟩,
        Function.bijective_iff_has_inverse.mpr ⟨encrypt R keys, encrypt_decrypt R keys, decrypt_encrypt R keys⟩⟩,
    fun _ _ _ => ⟨rfl, rfl⟩, fun _ keys p _ hR _ hj => valueAfter_dec_encrypt keys p hR hj⟩

end Sys2Proof.Machine
end

section
/-! The driver commands and the sequencer: checks, acceptance, the round steps of each direction, and what they leave
unchanged (R113 to R121). -/

namespace Sys2Proof.Machine

/-! ### Checks and acceptance -/

section
variable {i : Instr} {dir : Dir} {p : Word} {s : State} (hi : driver? i = some (dir, p))
include hi

theorem exec_driver_of_empty (h : s.KN = 0) : exec i s = .next (s.raise .missingKey) :=
  (exec_of_driver s hi).trans (congrArg _ (State.whenKeysComplete_of_empty _ h))

theorem exec_driver_of_few (h0 : 0 < s.KN) (h : s.KN < s.cfg.keyCount) :
    exec i s = .next (s.raise .insufficientKey) :=
  (exec_of_driver s hi).trans (congrArg _ (State.whenKeysComplete_of_few _ h0 h))

theorem exec_driver_of_full (h : s.cfg.keyCount ≤ s.KN) : exec i s = .next (s.accept dir p) :=
  (exec_of_driver s hi).trans (congrArg _ (State.whenKeysComplete_of_full _ h))

end

/-- Settles O33, along the key count. -/
theorem driverChecks : Obligations.DriverChecks :=
  fun _ _ =>
    ⟨fun h => ⟨exec_driver_of_empty rfl h, exec_driver_of_empty rfl h⟩,
      fun h0 h => ⟨exec_driver_of_few rfl h0 h, exec_driver_of_few rfl h0 h⟩⟩

/-! ### The `R` round steps of an operation -/

/-- Settles O37: the values between the round steps and the value at the end (R119). -/
theorem valuesBetweenRoundSteps : Obligations.ValuesBetweenRoundSteps :=
  ⟨fun dir p s _ hj => roundSteps_accept dir p s hj, fun dir _ keys p hR => valueAfter_rounds dir keys p hR⟩

/-- Rules R118, R119: the round steps of an accepted operation leave what the atomic command leaves in a ready core;
acceptance overwrites `BUSY` and `RC`, so what they were does not matter. -/
theorem roundSteps_accept_rounds (dir : Dir) (p : Word) {s : State} (hR : 1 ≤ s.cfg.rounds) :
    roundSteps s.cfg.rounds (s.accept dir p) = State.driveAtOnce dir p { s with BUSY := false, RC := 0 } := by
  calc roundSteps s.cfg.rounds (s.accept dir p)
    _ = roundSteps (s.cfg.rounds - 1 + 1) (s.accept dir p) := by rw [Nat.sub_add_cancel hR]
    _ = State.driveAtOnce dir p { s with BUSY := false, RC := 0 } :=
      roundStep_accept_last dir p (s := { s with BUSY := false, RC := 0 }) hR rfl rfl

/-- Settles O34: a full store passes the checks, and the `R` round steps compute the encryption. -/
theorem encEncryptsItsOperand : Obligations.EncEncryptsItsOperand :=
  ⟨fun _ => decode_of_fields ⟨rfl, rfl, rfl⟩ rfl, fun p _ ⟨⟨hR, _⟩, _⟩ hfull =>
    ⟨_, exec_driver_of_full rfl hfull.ge, rfl, roundSteps_accept_rounds .enc p hR⟩⟩

/-- Settles O35: a full store passes the checks, and the `R` round steps compute the decryption. -/
theorem decDecryptsItsOperand : Obligations.DecDecryptsItsOperand :=
  ⟨fun _ => decode_of_fields ⟨rfl, rfl, rfl⟩ rfl, fun c _ ⟨⟨hR, _⟩, _⟩ hfull =>
    ⟨_, exec_driver_of_full rfl hfull.ge, rfl, roundSteps_accept_rounds .dec c hR⟩⟩

/-! ### One round step -/

section
variable {s : State}

/-- Rule R115, rounds `0` to `R - 2`. -/
theorem State.nextBlock_enc_full (hdir : s.DIR = .enc) (h : s.RC < s.cfg.rounds - 1) :
    s.nextBlock = fullRound s.S (s.readKey s.RC) := by
  rw [State.nextBlock, hdir]
  exact encryptRound_full s.K s.S h

/-- Rule R115, round `R - 1`. -/
theorem State.nextBlock_enc_last (hdir : s.DIR = .enc) (h : s.RC = s.cfg.rounds - 1) :
    s.nextBlock = lastRound s.S (s.readKey (s.cfg.rounds - 1)) (s.readKey s.cfg.rounds) := by
  rw [State.nextBlock, hdir]
  exact encryptRound_last s.K s.S h

/-- Rule R116, the first step. -/
theorem State.nextBlock_dec_first (hdir : s.DIR = .dec) (h : s.RC = 0) :
    s.nextBlock = invLastRound s.S (s.readKey (s.cfg.rounds - 1)) (s.readKey s.cfg.rounds) := by
  rw [State.nextBlock, hdir, h]
  exact decryptRound_first s.cfg.rounds s.K s.S

/-- Rule R116, the steps after the first. -/
theorem State.nextBlock_dec_full (hdir : s.DIR = .dec) (h : s.RC ≠ 0) :
    s.nextBlock = invFullRound s.S (s.readKey (s.cfg.rounds - 1 - s.RC)) := by
  rw [State.nextBlock, hdir]
  exact decryptRound_full s.cfg.rounds s.K s.S h

end

/-- Settles O36: the value of each step is the one of its direction and position, and the step counts unless it is the
last. -/
theorem roundStepOfTheSequencer : Obligations.RoundStepOfTheSequencer := by
  refine fun s => ⟨fun hdir hlt => ?_, fun hdir hlast => ?_, fun hdir hzero hone hR => ?_, fun hdir hpos hlt => ?_,
    fun hdir hpos hlast => ?_, fun hdir hzero hone => ?_⟩
  · rw [State.roundStep_middle hlt.ne, State.nextBlock_enc_full hdir hlt]
  · rw [State.roundStep_last hlast, State.nextBlock_enc_last hdir hlast]
  · rw [State.roundStep_middle (by omega), State.nextBlock_dec_first hdir hzero, hzero]
  · rw [State.roundStep_middle hlt.ne, State.nextBlock_dec_full hdir hpos]
  · rw [State.roundStep_last hlast, State.nextBlock_dec_full hdir hpos, hlast, Nat.sub_self]
  · rw [State.roundStep_last (by omega), State.nextBlock_dec_first hdir hzero, hone]

/-! ### Frames -/

/-- Only `KCLR` and `KPUSH` write the key store or its count (R32, R132). -/
theorem exec_keeps_store {i : Instr} {s t : State} (h : exec i s = .next t) (hclr : i ≠ .kclr)
    (hpush : ∀ v, i ≠ .kpush v) : t.K = s.K ∧ t.KN = s.KN := by
  by_contra hchange
  rcases (exec_keys h).2 (Decidable.not_and_iff_not_or_not.mp hchange) with hi | ⟨v, hi⟩
  exacts [hclr hi, hpush v hi]

@[simp] theorem State.roundStep_DIR (s : State) : s.roundStep.DIR = s.DIR := by
  by_cases hlast : s.RC = s.cfg.rounds - 1
  · rw [State.roundStep_last hlast]
  · rw [State.roundStep_middle hlast]

/-- A key read sees the store alone. -/
theorem State.readKey_congr {s t : State} (h : t.K = s.K) (j : Nat) : t.readKey j = s.readKey j := by
  rw [State.readKey, State.readKey, h]

/-- Settles O47, from the frames of an instruction and of a round step. -/
theorem frameOfDrivers : Obligations.FrameOfDrivers := by
  refine ⟨fun p s t hexec => ?_, fun s => ⟨s.roundStep_cfg, s.roundStep_K, State.readKey_congr s.roundStep_K,
    s.roundStep_KN, s.roundStep_DIR, s.roundStep_inputs⟩⟩
  obtain ⟨i, hclr, hpush, h⟩ : ∃ i, i ≠ .kclr ∧ (∀ v, i ≠ .kpush v) ∧ exec i s = .next t := by
    rcases hexec with h | h
    exacts [⟨.enc p, nofun, nofun, h⟩, ⟨.dec p, nofun, nofun, h⟩]
  obtain ⟨hcfg, hinputs⟩ := exec_cfg_inputs h
  obtain ⟨hK, hKN⟩ := exec_keeps_store h hclr hpush
  exact ⟨hcfg, hK, State.readKey_congr hK, hKN, hinputs⟩

end Sys2Proof.Machine
end

section
/-! The commands of the block register and the key store: what each answers, which registers it writes, and what a key
read then finds (R130 to R133). -/

namespace Sys2Proof.Machine

/-! ### The block register -/

theorem exec_lds (v : Word) (s : State) : exec (.lds v) s = .next (s.answerBlock v) := rfl

/-- Settles O13: `LDS` writes its operand to the block register and answers it. -/
theorem ldsLoadsTheBlock : Obligations.LdsLoadsTheBlock :=
  ⟨fun _ => decode_of_fields ⟨rfl, rfl, rfl⟩ rfl, exec_lds⟩

theorem exec_rds (s : State) : exec .rds s = .next (s.respond .ok s.S) := rfl

/-- The second `RDS` finds the block as the first did, since a response is no register (R131). -/
theorem exec_rds_twice (s : State) : andThen (exec .rds s) (exec .rds) = exec .rds s := by
  rw [exec_rds, andThen_next, exec_rds, State.respond_S]
  rfl

/-- Settles O14: `RDS` writes the response alone, and reset leaves a block of 0. -/
theorem rdsReadsTheBlock : Obligations.RdsReadsTheBlock :=
  ⟨fun _ => decode_of_fields ⟨rfl, rfl, rfl⟩ rfl, fun s => ⟨exec_rds s, exec_rds_twice s⟩,
    fun c => exec_rds (State.resetOf c)⟩

/-! ### Dropping the keys -/

theorem exec_kclr (s : State) : exec .kclr s = .next (s.dropKeys.respond .ok 0) := rfl

/-- Rule R15: with a key count of 0 no entry is valid. -/
theorem State.keyValid_of_empty {s : State} (h : s.KN = 0) (i : Nat) : s.keyValid i = false :=
  Bool.eq_false_iff.mpr fun hvalid => Nat.not_lt_zero i (h ▸ (s.keyValid_iff i).mp hvalid)

/-- Settles O15: `KCLR` leaves a key count of 0, at which no entry is valid and both driver commands fail their first
check. -/
theorem kclrDropsTheKeys : Obligations.KclrDropsTheKeys :=
  ⟨fun _ => decode_of_fields ⟨rfl, rfl, rfl⟩ rfl, fun s =>
    ⟨_, exec_kclr s, rfl, State.keyValid_of_empty rfl, fun _ =>
      ⟨exec_driver_of_empty rfl rfl, exec_driver_of_empty rfl rfl⟩⟩⟩

/-! ### Appending a key -/

/-- Rule R32: the appended key is read back from the entry at `KN`, if the store has that entry. -/
theorem State.readKey_appendKey_self {s : State} (v : Word) (h : s.KN < s.K.length) :
    (s.appendKey v).readKey s.KN = v := by
  simp [State.readKey, h]

theorem State.keyValid_appendKey_self (v : Word) (s : State) : (s.appendKey v).keyValid s.KN = true :=
  (State.keyValid_iff _ _).mpr (Nat.lt_succ_self s.KN)

/-- Rules R60, R135: the data result of `KPUSH` holds every count a build can reach. -/
theorem toNat_countData {n : Nat} (h : n ≤ 256) : (countData n).toNat = n := by
  rw [countData, BitVec.toNat_ofNat]
  exact Nat.mod_eq_of_lt (by omega)

/-- Settles O16: a well-formed store that is not full has an entry at `KN`, and the count after the push is at most
256. -/
theorem kpushAppendsAKey : Obligations.KpushAppendsAKey := by
  refine ⟨fun _ => decode_of_fields ⟨rfl, rfl, rfl⟩ rfl, fun v s hs hroom => ?_⟩
  obtain ⟨⟨-, hrounds⟩, ⟨hlen, hkn⟩, -⟩ := hs
  have hlt : s.KN < s.cfg.rounds + 1 := Nat.lt_of_le_of_ne hkn hroom
  have hentry : s.KN < s.K.length := hlen ▸ hlt
  have hcount : s.KN + 1 ≤ 256 := by omega
  exact ⟨_, exec_kpush_of_room v hroom, rfl, toNat_countData hcount, State.readKey_appendKey_self v hentry,
    State.keyValid_appendKey_self v s, fun _ hj => State.readKey_appendKey_of_ne v hj, List.length_set⟩

end Sys2Proof.Machine
end

section
/-! The errors (60_exceptions.md): an error writes the response alone, and which error each command reports. -/

namespace Sys2Proof.Machine

/-! ### One command's error -/

/-- Settles O17: a full store fails the check of `KPUSH`. -/
theorem kpushOnAFullStore : Obligations.KpushOnAFullStore :=
  fun v _ hfull => exec_kpush_of_full v hfull

/-- Settles O8: an illegal word is rejected before anything of the state or of `wdata` is read. -/
theorem illegalCommandAnswersItsCode : Obligations.IllegalCommandAnswersItsCode :=
  ⟨fun s _ _ hd => ⟨acceptCommand_of_illegal s hd, fun v => decode_error_wdata v hd⟩,
    fun _ c _ tick es hb hd => (step_of_command es c tick hb).trans (acceptCommand_of_illegal _ hd)⟩

/-! ### An error writes the response alone -/

/-- Rule R141, of an instruction: an answer other than `OK` is a raised error. -/
theorem exec_error {i : Instr} {s t : State} {r : Response} (h : exec i s = .next t) (hrsp : t.rsp = some r)
    (herror : r.status ≠ .ok) : t = s.raise r.status := by
  rcases exec_cases h with ⟨st, -, rfl⟩ | ⟨v, -, rfl⟩ | ⟨-, rfl⟩ | ⟨v, -, -, rfl⟩ | ⟨dir, p, -, -, rfl⟩
  case inl => cases hrsp; rfl
  case inr.inr.inr.inr => cases hrsp
  all_goals
    cases hrsp
    exact absurd rfl herror

/-- Rule R141, of an accepted command. -/
theorem acceptCommand_error {c : Command} {s t : State} {r : Response} (h : acceptCommand c s = .next t)
    (hrsp : t.rsp = some r) (herror : r.status ≠ .ok) : t = s.raise r.status := by
  cases hd : decode c with
  | error w =>
    cases (acceptCommand_of_illegal s hd).symm.trans h
    cases hrsp
    rfl
  | ok i => exact exec_error ((acceptCommand_of_legal s hd).symm.trans h) hrsp herror

/-- A round step over an empty port answers `OK` or nothing (R118). -/
theorem State.roundStep_status {s : State} {r : Response} (hs : s.rsp = none) (hrsp : s.roundStep.rsp = some r) :
    r.status = .ok := by
  by_cases hlast : s.RC = s.cfg.rounds - 1
  · rw [State.roundStep_last hlast] at hrsp
    cases hrsp
    rfl
  · rw [State.roundStep_middle hlast] at hrsp
    exact absurd (hs.symm.trans hrsp) nofun

/-- Rule R141, of an edge that finds the response port empty: only a command accepted by a ready core answers an
error. -/
theorem coreEdge_error {e : Edge} {s t : State} {r : Response} (hs : s.rsp = none) (h : coreEdge e s = .next t)
    (hrsp : t.rsp = some r) (herror : r.status ≠ .ok) : t = s.raise r.status ∧ s.BUSY = false := by
  rcases coreEdge_cases h with ⟨-, rfl⟩ | ⟨-, -, -, rfl⟩ | ⟨-, -, -, rfl⟩ | ⟨-, -, -, rfl⟩ |
    ⟨c, w, hr, hb, hc, -, -⟩ | ⟨c, i, hr, hb, hc, -, -⟩
  · cases hrsp
  · exact absurd (State.roundStep_status hs hrsp) herror
  · exact absurd (hs.symm.trans hrsp) nofun
  · exact absurd (hs.symm.trans hrsp) nofun
  all_goals exact ⟨acceptCommand_error ((coreEdge_of_command hr hb hc).symm.trans h) hrsp herror, hb⟩

/-- Settles O41: a step is an edge that finds the response of the edge before it gone. -/
theorem errorsChangeNothing : Obligations.ErrorsChangeNothing := by
  refine ⟨fun c s t r => acceptCommand_error, fun s t r hstep hrsp herror => ?_⟩
  obtain ⟨rfl, hready⟩ := coreEdge_error s.passEdge_rsp ((step_eq s).symm.trans hstep) hrsp herror
  exact ⟨rfl, congrArg not hready⟩

/-! ### The error on the port -/

/-- The status on the response port, if it is an error. -/
def State.error? (s : State) : Option Status :=
  (s.rsp.map Response.status).filter (· ≠ .ok)

theorem State.error?_eq_some_iff {s : State} {st : Status} (h : st ≠ .ok) :
    s.error? = some st ↔ ∃ v, s.rsp = some ⟨st, v⟩ := by
  rcases hrsp : s.rsp with _ | ⟨st', v⟩
  · simp [State.error?, hrsp]
  · simp only [State.error?, hrsp, Option.map_some, Option.filter_eq_some_iff]
    simp [h]

/-! ### The checks of an instruction -/

/-- The check of `KPUSH` (R147). -/
def State.pushError? (s : State) : Option Status :=
  if s.KN = s.cfg.keyCount then some .keyFull else none

/-- The check of a command whose highest key index is `idx` (R146). -/
def State.indexError? (s : State) (idx : Nat) : Option Status :=
  if s.KN ≤ idx then some .keyIndex else none

/-- The checks of a driver command, in the order of R149. -/
def State.driverError? (s : State) : Option Status :=
  if s.KN = 0 then some .missingKey
  else if s.KN < s.cfg.keyCount then some .insufficientKey
  else none

/-- The error an instruction reports in a state (R143, R144, R146, R147); `none` if its checks pass. -/
def State.instrError? (s : State) : Instr → Option Status
  | .kpush _ => s.pushError?
  | .mix idx | .rnd idx | .irnd idx => s.indexError? idx
  | .lrnd idx | .ilrnd idx => s.indexError? (idx + 1)
  | .enc _ | .dec _ => s.driverError?
  | .lds _ | .rds | .kclr | .mixi _ | .sub | .isub | .perm => none

theorem State.error?_withKey (s : State) (idx : Nat) (f : Word → Word) :
    (s.withKey idx f).error? = s.indexError? idx := by
  rcases s.withKey_cases idx f with ⟨hi, h⟩ | ⟨hv, h⟩ <;> rw [h, State.indexError?]
  · rw [if_pos hi]; rfl
  · rw [if_neg hv.not_ge]; rfl

theorem State.error?_withKeyPair (s : State) (idx : Nat) (f : Word → Word → Word) :
    (s.withKeyPair idx f).error? = s.indexError? (idx + 1) := by
  rcases s.withKeyPair_cases idx f with ⟨hi, h⟩ | ⟨hv, h⟩ <;> rw [h, State.indexError?]
  · rw [if_pos hi]; rfl
  · rw [if_neg hv.not_ge]; rfl

theorem State.error?_whenKeysComplete_accept (s : State) (dir : Dir) (p : Word) :
    (s.whenKeysComplete (State.accept dir p)).error? = s.driverError? := by
  rcases s.whenKeysComplete_cases (State.accept dir p) with ⟨h0, h⟩ | ⟨h0, hk, h⟩ | ⟨hk, h⟩ <;>
    rw [h, State.driverError?]
  · rw [if_pos h0]; rfl
  · rw [if_neg h0.ne', if_pos hk]; rfl
  · have h0 : s.KN ≠ 0 := (Nat.lt_of_lt_of_le (Nat.succ_pos _) hk).ne'
    rw [if_neg h0, if_neg hk.not_gt]; rfl

/-- The error an instruction leaves on the port is the one its checks find. -/
theorem exec_error? {i : Instr} {s t : State} (h : exec i s = .next t) : t.error? = s.instrError? i := by
  cases i with
  | kpush v =>
    by_cases hfull : s.KN = s.cfg.keyCount
    · cases (exec_kpush_of_full v hfull).symm.trans h
      rw [State.instrError?, State.pushError?, if_pos hfull]; rfl
    · cases (exec_kpush_of_room v hfull).symm.trans h
      rw [State.instrError?, State.pushError?, if_neg hfull]; rfl
  | mix idx | rnd idx | irnd idx => cases h; exact s.error?_withKey idx _
  | lrnd idx | ilrnd idx => cases h; exact s.error?_withKeyPair idx _
  | enc p | dec p => cases h; exact s.error?_whenKeysComplete_accept _ p
  | lds _ | rds | kclr | mixi _ | sub | isub | perm => cases h; rfl

/-- What an error answer of an instruction says of its checks. -/
theorem exec_reports_iff {i : Instr} {s t : State} {st : Status} (h : exec i s = .next t) (hst : st ≠ .ok) :
    (∃ v, t.rsp = some ⟨st, v⟩) ↔ s.instrError? i = some st := by
  rw [← State.error?_eq_some_iff hst, exec_error? h]

/-! ### The instructions that report each error -/

@[simp] theorem State.pushError?_eq_some_iff {s : State} {st : Status} :
    s.pushError? = some st ↔ st = .keyFull ∧ s.KN = s.cfg.keyCount := by
  rw [State.pushError?, Option.ite_none_right_eq_some, Option.some.injEq, and_comm, eq_comm (a := st)]

@[simp] theorem State.indexError?_eq_some_iff {s : State} {idx : Nat} {st : Status} :
    s.indexError? idx = some st ↔ st = .keyIndex ∧ s.KN ≤ idx := by
  rw [State.indexError?, Option.ite_none_right_eq_some, Option.some.injEq, and_comm, eq_comm (a := st)]

@[simp] theorem State.driverError?_eq_some_iff {s : State} {st : Status} :
    s.driverError? = some st ↔
      (st = .missingKey ∧ s.KN = 0) ∨ (st = .insufficientKey ∧ 0 < s.KN ∧ s.KN < s.cfg.keyCount) := by
  rcases Nat.eq_zero_or_pos s.KN with h0 | h0
  · simp [State.driverError?, h0, eq_comm (a := st)]
  · simp [State.driverError?, h0, h0.ne', and_comm, eq_comm (a := st)]

section
variable {s : State} {i : Instr}

theorem State.instrError?_eq_keyIndex_iff : s.instrError? i = some .keyIndex ↔
    ∃ idx, (i = .mix idx ∧ s.KN ≤ idx) ∨ (i = .rnd idx ∧ s.KN ≤ idx) ∨ (i = .irnd idx ∧ s.KN ≤ idx) ∨
      (i = .lrnd idx ∧ s.KN ≤ idx + 1) ∨ (i = .ilrnd idx ∧ s.KN ≤ idx + 1) := by
  cases i <;> simp [State.instrError?]

theorem State.instrError?_eq_keyFull_iff :
    s.instrError? i = some .keyFull ↔ ∃ v, i = .kpush v ∧ s.KN = s.cfg.keyCount := by
  cases i <;> simp [State.instrError?]

theorem State.instrError?_eq_missingKey_iff :
    s.instrError? i = some .missingKey ↔ ∃ p, (i = .enc p ∨ i = .dec p) ∧ s.KN = 0 := by
  cases i <;> simp [State.instrError?]

theorem State.instrError?_eq_insufficientKey_iff : s.instrError? i = some .insufficientKey ↔
    ∃ p, (i = .enc p ∨ i = .dec p) ∧ 0 < s.KN ∧ s.KN < s.cfg.keyCount := by
  cases i <;> simp [State.instrError?]

end

/-- Rules R140, R142, R145: the errors an instruction can report. -/
theorem State.instrError?_mem {s : State} {i : Instr} {st : Status} (h : s.instrError? i = some st) :
    st ∈ [Status.insufficientKey, .missingKey, .keyIndex, .keyFull] := by
  cases i with
  | kpush v =>
    obtain ⟨rfl, -⟩ := State.pushError?_eq_some_iff.mp h
    decide
  | mix idx | rnd idx | irnd idx | lrnd idx | ilrnd idx =>
    obtain ⟨rfl, -⟩ := State.indexError?_eq_some_iff.mp h
    decide
  | enc p | dec p => rcases State.driverError?_eq_some_iff.mp h with ⟨rfl, -⟩ | ⟨rfl, -⟩ <;> decide
  | lds _ | rds | kclr | mixi _ | sub | isub | perm => cases h

/-- Settles O42: an illegal word reports `IllegalCmd` alone, and a legal one what the checks of its instruction
find. -/
theorem errorCauses : Obligations.ErrorCauses := by
  intro c s t h
  cases hd : decode c with
  | error w =>
    cases (acceptCommand_of_illegal s hd).symm.trans h
    simp
  | ok i =>
    have hexec : exec i s = .next t := (acceptCommand_of_legal s hd).symm.trans h
    have never {st : Status} (hst : st ≠ .ok) (hother : st ∉ [.insufficientKey, .missingKey, .keyIndex, .keyFull]) :
        ¬ ∃ v, t.rsp = some ⟨st, v⟩ :=
      fun hrsp => hother (State.instrError?_mem ((exec_reports_iff hexec hst).mp hrsp))
    simp only [Except.ok.injEq]
    exact ⟨iff_of_false (never (by decide) (by decide)) nofun,
      (exec_reports_iff hexec (by decide)).trans State.instrError?_eq_keyIndex_iff,
      (exec_reports_iff hexec (by decide)).trans State.instrError?_eq_keyFull_iff,
      (exec_reports_iff hexec (by decide)).trans State.instrError?_eq_missingKey_iff,
      (exec_reports_iff hexec (by decide)).trans State.instrError?_eq_insufficientKey_iff,
      not_exists.mp (never (by decide) (by decide)), not_exists.mp (never (by decide) (by decide))⟩

end Sys2Proof.Machine
end

section
/-! Reset edges, and that a running operation ends with its last round step (R160, R162, R172). -/

namespace Sys2Proof.Machine

/-! ### A reset edge -/

theorem step_of_reset {s : State} (c : Option Command) (tick : Bool) (es : List Edge) :
    step { s with inputs := ⟨true, c, tick⟩ :: es } = .next { State.resetOf s.cfg with inputs := es } :=
  coreEdge_of_reset (e := ⟨true, c, tick⟩) { s with inputs := es, rsp := none } rfl

/-- Settles O10: the fields of the reset state, whose store holds one entry for each of the `R + 1` keys. -/
theorem resetEdgeGivesResetValues : Obligations.ResetEdgeGivesResetValues :=
  fun _ c tick es =>
    ⟨_, step_of_reset c tick es, rfl, rfl, rfl, rfl, rfl, rfl, rfl, rfl, List.length_replicate⟩

/-! ### A running operation -/

/-- Rule R117: round steps before the last one write the block and count. -/
theorem roundSteps_running {s : State} {n : Nat} (h : s.RC + n < s.cfg.rounds) :
    ∃ v, roundSteps n s = { s with S := v, RC := s.RC + n } := by
  induction n with
  | zero => exact ⟨s.S, rfl⟩
  | succ n ih =>
    obtain ⟨v, hv⟩ := ih (by omega)
    have hmiddle : s.RC + n ≠ s.cfg.rounds - 1 := by omega
    rw [roundSteps, hv]
    exact ⟨_, State.roundStep_middle (s := { s with S := v, RC := s.RC + n }) hmiddle⟩

/-- Rule R117: edges that complete fewer round steps than are left count them, and nothing is answered. -/
theorem runsTo_running {s : State} {es : List Edge} (rest : List Edge) (hb : s.BUSY = true) (hrsp : s.rsp = none)
    (hes : noReset es = true) (hticks : s.RC + tickCount es < s.cfg.rounds) :
    ∃ v, RunsTo es.length { s with inputs := es ++ rest }
      { s with S := v, RC := s.RC + tickCount es, inputs := rest } [] := by
  obtain ⟨v, hv⟩ := roundSteps_running hticks
  have hrun := runsTo_roundSteps rest hb hrsp hes hticks
  rw [hv] at hrun
  exact ⟨v, hrun⟩

/-- Settles O39: the edges before the last round step leave the operation running with its count advanced, and the
edge of the last one finds the count at `R - 1`. -/
theorem busyAlwaysEnds : Obligations.BusyAlwaysEnds := by
  intro s es rest hs hb hes
  obtain ⟨-, -, ⟨-, -, hbusy⟩, -⟩ := hs
  obtain ⟨-, hrsp⟩ := hbusy hb
  refine ⟨fun hticks => ?_, ?_⟩
  · obtain ⟨_, hrun, -⟩ := runsTo_running rest hb hrsp hes (by omega)
    exact ⟨_, hrun, hb, rfl, hrsp, rfl⟩
  · rintro ⟨rst, c, tick⟩ rfl rfl hticks
    obtain ⟨v, before⟩ := runsTo_running (⟨false, c, true⟩ :: rest) hb hrsp hes (by omega)
    have hlast : s.RC + tickCount es = s.cfg.rounds - 1 := by omega
    have ends := runsTo_round (s := { s with S := v, RC := s.RC + tickCount es }) c rest hb hrsp
    rw [State.roundStep_last (s := { s with S := v, RC := s.RC + tickCount es }) hlast] at ends
    obtain ⟨hrun, -⟩ := before.trans ends
    exact ⟨_, hrun, rfl, rfl, rfl, rfl⟩

end Sys2Proof.Machine
end
